-- ==== Sys2Proof/Word.lean ====
section
/-! DEFINITION. The cell: a signed integer of `W` bits, its range and its modulus (spec R9, R10, R22).

The spec gives the engine no bytes and no bit fields: "every operation moves or computes on whole cells" (R11), and a
cell is an integer in `[MIN, MAX]`. The model therefore holds a cell as an `Int`; that every cell of a state lies in the
range is part of the invariant `State.Inv` (Safety.lean). -/

namespace Sys2Proof

/-- A cell value: an integer `v` with `MIN ≤ v ≤ MAX` (R9). The bound is an invariant of the machine, not of the type,
because the width `W` is a construction parameter (R6). -/
abbrev CellValue := Int

/-- `MIN = -2^(W-1)` (R9). -/
def minCell (W : Nat) : Int := -((2 ^ (W - 1) : Nat) : Int)

/-- `MAX = 2^(W-1) - 1` (R9). -/
def maxCell (W : Nat) : Int := ((2 ^ (W - 1) : Nat) : Int) - 1

/-- `MOD = 2^W` (R9). -/
def cellModulus (W : Nat) : Int := ((2 ^ W : Nat) : Int)

/-- `v` is a cell value of width `W` (R9). -/
abbrev InCellRange (W : Nat) (v : Int) : Prop := minCell W ≤ v ∧ v ≤ maxCell W

end Sys2Proof
end

