-- ==== Sys2Proof/Config.lean ====
section
/-! DEFINITION. The construction parameters of the engine (spec R6, R7, R21).

"They are fixed when the engine is built and no instruction or host transaction changes them. The model takes each as
an argument" (R6). The fixed signatures of `exec` and `step` take only an instruction and a state, so the parameter
record stands in `State` as a field that nothing writes (log entry 1); `Params.WellFormed` (WellFormed.lean) are the
constraints of R8. The spec leaves no free value open (93_implementation_defined.md), so there is none here. -/

namespace Sys2Proof

/-- The map `OPC` from the fourteen mnemonics to opcode values (R6, R74): one field per mnemonic, in the table's order. -/
structure OpcodeMap where
  noop : Int
  dsFetch : Int
  dsStore : Int
  rsFetch : Int
  rsStore : Int
  literal : Int
  dsAdd : Int
  dsSub : Int
  dsMul : Int
  dsDiv : Int
  dsEq : Int
  if_ : Int
  then_ : Int
  jump : Int
deriving DecidableEq, Repr

/-- The fourteen opcode values in the order of the table of R74. -/
def OpcodeMap.values (m : OpcodeMap) : List Int :=
  [m.noop, m.dsFetch, m.dsStore, m.rsFetch, m.rsStore, m.literal, m.dsAdd, m.dsSub, m.dsMul, m.dsDiv, m.dsEq, m.if_,
    m.then_, m.jump]

/-- The construction parameters of R6. `width` is `W`, `depth` is `D` (one depth for both stacks, R7), `memSize` is `M`.
The two reserved offsets have "no behaviour attached" (R41, R58). -/
structure Params where
  width : Nat
  depth : Nat
  memSize : Nat
  programOffset : Int
  tibOffset : Int
  dictionaryOffset : Int
  opc : OpcodeMap
deriving DecidableEq, Repr

end Sys2Proof
end

