-- ==== Sys2Proof/Syntax.lean ====
section
/-! DEFINITION. The instruction set (spec R2, R70, R71, R82): fourteen zero-argument operations, a whole instruction as
it stands in a program image, and the items of a program listing. -/

namespace Sys2Proof

/-- The fourteen instructions, in the order of the opcode table (R2, R74). Each is a "zero-argument operation" (R71):
every operand is taken from a stack at execution time, and LITERAL reads its operand cell itself when it is executed
(R120), so no constructor carries one. -/
inductive Instr where
  | noop
  | dsFetch
  | dsStore
  | rsFetch
  | rsStore
  | literal
  | dsAdd
  | dsSub
  | dsMul
  | dsDiv
  | dsEq
  | if_
  | then_
  | jump
deriving DecidableEq, Repr

/-- All fourteen instructions in the table's order (R2, R74). -/
def Instr.all : List Instr :=
  [.noop, .dsFetch, .dsStore, .rsFetch, .rsStore, .literal, .dsAdd, .dsSub, .dsMul, .dsDiv, .dsEq, .if_, .then_, .jump]

/-- A whole instruction as it lies in a program image (R70): its operation and, for the format `OP_LIT`, the operand
cell that follows the opcode cell. -/
structure Code where
  instr : Instr
  operand : Option Int
deriving DecidableEq, Repr

/-- One item of a program listing (R82): a mnemonic or an integer. -/
inductive ListingItem where
  | mnemonic (i : Instr)
  | integer (v : Int)
deriving DecidableEq, Repr

end Sys2Proof
end

