-- ==== Sys2Proof/WellFormed.lean ====
section
/-! DEFINITION. What makes a parameter set a configuration of this hardware (spec R8, R75) and a whole instruction one
that the encoding can hold (R70, R78). Every check is decidable; each has an ill-formed example in Tests/Slice0.lean. -/

namespace Sys2Proof

/-- `W ≥ 2` (R8). -/
abbrev Params.WidthOk (p : Params) : Prop := 2 ≤ p.width

/-- `D ≥ 1` (R8). -/
abbrev Params.DepthOk (p : Params) : Prop := 1 ≤ p.depth

/-- `M ≥ 1` (R8). -/
abbrev Params.MemSizeOk (p : Params) : Prop := 1 ≤ p.memSize

/-- `0 ≤ PROGRAM_OFFSET < M` (R8). -/
abbrev Params.ProgramOffsetOk (p : Params) : Prop := 0 ≤ p.programOffset ∧ p.programOffset < p.memSize

/-- `OPC` is injective: fourteen distinct values (R75). -/
abbrev Params.OpcodesDistinct (p : Params) : Prop := p.opc.values.Nodup

/-- Every opcode value lies in `[0, MAX]` (R8, R75). -/
abbrev Params.OpcodesInRange (p : Params) : Prop := ∀ v ∈ p.opc.values, 0 ≤ v ∧ v ≤ maxCell p.width

/-- A parameter set is a configuration of this hardware: the constraints of R8 and R75. The two reserved offsets are
unconstrained. -/
abbrev Params.WellFormed (p : Params) : Prop :=
  p.WidthOk ∧ p.DepthOk ∧ p.MemSizeOk ∧ p.ProgramOffsetOk ∧ p.OpcodesDistinct ∧ p.OpcodesInRange

/-- An operand cell stands after LITERAL and after nothing else (R70, the two formats). -/
abbrev Code.FormatOk (c : Code) : Prop := c.operand.isSome = true ↔ c.instr = .literal

/-- The operand "may be any value in `[MIN, MAX]`" (R78). -/
abbrev Code.OperandOk (W : Nat) (c : Code) : Prop := ∀ v ∈ c.operand, InCellRange W v

/-- A whole instruction that an image of `W`-bit cells can hold. -/
abbrev Code.WellFormed (W : Nat) (c : Code) : Prop := c.FormatOk ∧ c.OperandOk W

end Sys2Proof
end

