-- ==== Sys2Proof/Decode.lean ====
section
/-! DEFINITION. The cell write `wrap_W` and the bit image of a cell (spec R11, R22, R90), the opcode map and its default
(R74), the decoder (R72, R76), and after it the encoder and the listing assembler (R70, R73, R82). -/

namespace Sys2Proof

/-! ### The cell's reduction and its bit image -/

/-- `wrap_W(v) = ((v - MIN) mod 2^W) + MIN` (R90): the symmetric reduction of the cell's write, total on all integers. -/
def wrap (W : Nat) (v : Int) : Int := (v - minCell W) % cellModulus W + minCell W

/-- The bit image of a cell: the unsigned integer `value mod 2^W` (R22). -/
def bitImage (W : Nat) (v : Int) : Nat := (v % cellModulus W).toNat

/-- `sext_N` (R11): the low `N` bits of `b` read as a two's-complement signed integer. -/
def sext (N : Nat) (b : Nat) : Int :=
  let u := b % 2 ^ N
  if u < 2 ^ (N - 1) then (u : Int) else (u : Int) - cellModulus N

/-! ### The opcode map -/

/-- `OPC.NAME` of an instruction (R13, R74). -/
def OpcodeMap.code (m : OpcodeMap) : Instr → Int
  | .noop => m.noop
  | .dsFetch => m.dsFetch
  | .dsStore => m.dsStore
  | .rsFetch => m.rsFetch
  | .rsStore => m.rsStore
  | .literal => m.literal
  | .dsAdd => m.dsAdd
  | .dsSub => m.dsSub
  | .dsMul => m.dsMul
  | .dsDiv => m.dsDiv
  | .dsEq => m.dsEq
  | .if_ => m.if_
  | .then_ => m.then_
  | .jump => m.jump

/-- The default opcode map: 0 to 13 in the table's order (R74). -/
def OpcodeMap.standard : OpcodeMap where
  noop := 0x00
  dsFetch := 0x01
  dsStore := 0x02
  rsFetch := 0x03
  rsStore := 0x04
  literal := 0x05
  dsAdd := 0x06
  dsSub := 0x07
  dsMul := 0x08
  dsDiv := 0x09
  dsEq := 0x0A
  if_ := 0x0B
  then_ := 0x0C
  jump := 0x0D

/-- The default parameters (R6): `W = 32`, `D = 20`, `M = 350`, the map of R74. The three offsets are OPEN in the spec
(R58, D11); DESIGN CHOICE (log entry 2): all three are 0 in this one instance. No law and no obligation is about this
instance unless it says so: they quantify over the parameters. -/
def Params.standard : Params where
  width := 32
  depth := 20
  memSize := 350
  programOffset := 0
  tibOffset := 0
  dictionaryOffset := 0
  opc := OpcodeMap.standard

/-! ### Decoding -/

/-- The decoder (R72): compare the whole cell value with the fourteen values of `OPC`; a value that is none of them is
no instruction (R76). Decoding depends on nothing but the cell. -/
def decode (m : OpcodeMap) (c : Int) : Option Instr := Instr.all.find? fun i => decide (m.code i = c)

/-- The length of an instruction in cells (R73). -/
def Instr.length : Instr → Nat
  | .literal => 2
  | _ => 1

/-- Reads one whole instruction from the front of a program image and returns it with the rest (R70, R73). It refuses an
unregistered opcode (R76) and a LITERAL whose operand cell is missing. -/
def decodeCode (m : OpcodeMap) : List Int → Option (Code × List Int)
  | [] => none
  | c :: rest =>
    match decode m c with
    | none => none
    | some .literal =>
      match rest with
      | [] => none
      | v :: rest' => some (⟨.literal, some v⟩, rest')
    | some i => some (⟨i, none⟩, rest)

/-! ### Encoding -/

/-- The cells of a whole instruction (R70): the opcode cell and, for LITERAL, the operand cell after it. -/
def encode (m : OpcodeMap) (c : Code) : List Int :=
  m.code c.instr :: c.operand.toList

/-- The cell that one listing item stands for (R82): a mnemonic as `OPC.NAME`, an integer as `wrap_W` of itself. -/
def ListingItem.cell (p : Params) : ListingItem → Int
  | .mnemonic i => p.opc.code i
  | .integer v => wrap p.width v

/-- The program image of a listing: item `k` is the cell at `PROGRAM_OFFSET + k` (R82). -/
def assemble (p : Params) (items : List ListingItem) : List Int := items.map (·.cell p)

/-! ### The table's words -/

/-- Cell number `k` of an instruction whose bits are the number `w`, cell 0 in the low `W` bits. -/
def wordCell (W nbits w k : Nat) : Int := sext W ((w % 2 ^ nbits) / 2 ^ (W * k))

/-- The instruction the decoder reads from an instruction whose bits are `w`, numbered as spec/opcode_table.json numbers
them (R84: cells of `W = 32` bits and the default map). The longest instruction has two cells, the first in bits 31..0
and the second in bits 63..32; bits from `nbits` up are zero. -/
def decodeTableWord (nbits w : Nat) : Option Instr :=
  (decodeCode OpcodeMap.standard [wordCell 32 nbits w 0, wordCell 32 nbits w 1]).map (·.1.instr)

end Sys2Proof
end

