-- ==== Sys2Proof/Machine/State.lean ====
section
/-! DEFINITION. The architectural state of the engine as plain data (spec R20), the names of its faults (R165), and the
state after reset (R38). -/

namespace Sys2Proof.Machine

/-- The two stacks (R24): the data stack and the return stack. -/
inductive StackId where
  | ds
  | rs
deriving DecidableEq, Repr

/-- The five fault names of the spec (R17, R165), with the record each carries (R34). No meaning and no step of this
model answers `Host.Outcome.fault`: a fault "writes `status <- Terminated(r)` and nothing else" (R173), so it is taken
as a NEXT state whose `status` holds one of these names. The host transactions report the same names to the host
(R151, R153, R157). All are the spec's own and safe. -/
inductive Fault where
  /-- Raised by the step's decode when the cell fetched is no registered opcode (R167). Safe. -/
  | unknownOpcode (opcode address : Int)
  /-- Raised by a push on a full stack (R168): by LITERAL in a run, reported to the host by HostPreload. Safe. -/
  | stackOverflow (stack : StackId)
  /-- Raised by a pop on a stack with too few elements (R168): every instruction that pops. Safe. -/
  | stackUnderflow (stack : StackId)
  /-- Raised by every memory access outside `[0, M-1]` (R169): fetch, LITERAL operand, IF scan, the four loads and
  stores; reported to the host by HostLoad and HostDump. Safe. -/
  | addressOutOfBounds (address : Int)
  /-- Raised by DS_DIV when the divisor is zero (R170). Safe. -/
  | divisionByZero
deriving DecidableEq, Repr

/-- Why the model refuses. No instruction's meaning and no step answers a refusal (R183: "No instruction is refused"). -/
inductive Refusal where
  /-- Raised by an arm of `exec` for an instruction that has no meaning yet: there is none. Safe. -/
  | notModelled (mnemonic : String)
  /-- Raised by `construct` on a parameter set that breaks a constraint of R8: "not a configuration of this hardware and
  the model refuses it". Safe. -/
  | notAConfiguration
deriving DecidableEq, Repr

/-- The result with which a run ends (R165): the normal end or one of the five faults. -/
inductive Result where
  | endOfProgram
  | fault (f : Fault)
deriving DecidableEq, Repr

/-- The status latch (R33). -/
inductive Status where
  | running
  | terminated (r : Result)
deriving DecidableEq, Repr

/-- A stack (R24): a fixed-length sequence of cells and a stack pointer, -1 when empty. -/
structure Stack where
  cells : List Int
  sp : Int
deriving DecidableEq, Repr

/-- The cells of memory as a list of (address, value) pairs in one canonical form: addresses strictly rising and no
entry equal to 0, which is what an unlisted cell holds (R38: reset leaves 0). The unit is the cell: the engine has no
byte-addressed view (R53, R54; log entry 3). -/
abbrev Memory := List (Nat × Int)

/-- The state of the engine: the tuple of R20, and the construction parameters (R6, R21), which no step and no host
transaction writes (log entry 1). `pc` is an unbounded integer (R30). -/
structure State where
  params : Params
  mem : Memory
  ds : Stack
  rs : Stack
  pc : Int
  status : Status
deriving DecidableEq, Repr

/-- An empty stack of `D` zero cells: what reset leaves (R38) and what `flush` leaves (R39). -/
def Stack.empty (D : Nat) : Stack := ⟨List.replicate D 0, -1⟩

/-- The state after reset of an engine with parameters `p` (R38, R150, R191): every cell 0, both stacks empty, `pc` at
`PROGRAM_OFFSET`, `status` Running. -/
def State.resetWith (p : Params) : State where
  params := p
  mem := []
  ds := Stack.empty p.depth
  rs := Stack.empty p.depth
  pc := p.programOffset
  status := .running

/-- The state after reset of the engine with the default parameters (R6, R38). -/
def State.reset : State := State.resetWith Params.standard

end Sys2Proof.Machine
end

