-- ==== Sys2Proof/Machine/Ops.lean ====
section
/-! DEFINITION. The primitives every instruction is built from (spec 40_primitives.md, R90 to R99): memory, the stack
controller, the program counter, fetch and decode (R100), and taking a terminal condition (R96, R173). -/

namespace Sys2Proof.Machine

/-! ### Memory contents -/

/-- The canonical form: addresses strictly rising, no entry holding 0. -/
abbrev Memory.wf (m : Memory) : Prop := m.Pairwise (fun x y => x.1 < y.1) ∧ ∀ e ∈ m, e.2 ≠ 0

/-- What an unlisted cell holds: 0, the value reset leaves (R38). -/
def Memory.unlisted : Int := 0

/-- The contents of the cell at `a` (R23: a read has no side effect). -/
def Memory.read : Memory → Nat → Int
  | [], _ => Memory.unlisted
  | (k, u) :: rest, a => if a = k then u else Memory.read rest a

/-- Puts `v` in the cell at `a` and changes no other cell (R56); keeps the canonical form. -/
def Memory.write : Memory → Nat → Int → Memory
  | [], a, v => if v = Memory.unlisted then [] else [(a, v)]
  | (k, u) :: rest, a, v =>
    if a < k then (if v = Memory.unlisted then (k, u) :: rest else (a, v) :: (k, u) :: rest)
    else if a = k then (if v = Memory.unlisted then rest else (a, v) :: rest)
    else (k, u) :: Memory.write rest a v

/-! ### The memory path -/

/-- The address decoder accepts `a` exactly when `0 ≤ a < M`, on the integer itself (R51). -/
abbrev State.InBounds (s : State) (a : Int) : Prop := 0 ≤ a ∧ a < s.params.memSize

/-- `MemRead(addr, 1)` (R94). -/
def State.memRead (s : State) (a : Int) : Except Fault Int :=
  if s.InBounds a then .ok (s.mem.read a.toNat) else .error (.addressOutOfBounds a)

/-- `MemWrite(addr, 1, v)` (R95): the stored value is `wrap_W(v)`. -/
def State.memWrite (s : State) (a v : Int) : Except Fault State :=
  if s.InBounds a then .ok { s with mem := s.mem.write a.toNat (wrap s.params.width v) }
  else .error (.addressOutOfBounds a)

/-! ### The stack controller -/

/-- Cell `i` of a stack; an index that names no cell reads 0. -/
def Stack.cell (st : Stack) (i : Int) : Int := if i < 0 then 0 else st.cells.getD i.toNat 0

/-- The top of a non-empty stack: `S.cells[S.sp]` (R17). -/
def Stack.top (st : Stack) : Int := st.cell st.sp

/-- The elements of a stack, oldest first: `S.cells[0]` to `S.cells[S.sp]` (R24). -/
def Stack.elements (st : Stack) : List Int := st.cells.take (st.sp + 1).toNat

/-- The writes of a push that does not overflow (R92), `v` being the reduced value. -/
def Stack.pushed (st : Stack) (v : Int) : Stack := ⟨st.cells.set (st.sp + 1).toNat v, st.sp + 1⟩

/-- The writes of a pop that does not underflow (R93): the cell left is zeroed. -/
def Stack.popped (st : Stack) : Stack := ⟨st.cells.set st.sp.toNat 0, st.sp - 1⟩

/-- The stack of a name. -/
def State.stack (s : State) : StackId → Stack
  | .ds => s.ds
  | .rs => s.rs

/-- Replaces the stack of a name. -/
def State.setStack (s : State) (k : StackId) (st : Stack) : State :=
  match k with
  | .ds => { s with ds := st }
  | .rs => { s with rs := st }

/-- `Push(S, v)` (R92). -/
def State.push (s : State) (k : StackId) (v : Int) : Except Fault State :=
  if (s.params.depth : Int) - 1 ≤ (s.stack k).sp then .error (.stackOverflow k)
  else .ok (s.setStack k ((s.stack k).pushed (wrap s.params.width v)))

/-- `Pop(S)` (R93): the popped value and the state after it. -/
def State.pop (s : State) (k : StackId) : Except Fault (Int × State) :=
  if (s.stack k).sp < 0 then .error (.stackUnderflow k)
  else .ok ((s.stack k).top, s.setStack k (s.stack k).popped)

/-! ### The program counter -/

/-- `pc <- target`, never reduced (R30). -/
def State.setPc (s : State) (target : Int) : State := { s with pc := target }

/-- `pc <- P + n` (R31). -/
def State.advance (s : State) (n : Int) : State := s.setPc (s.pc + n)

/-! ### Arithmetic -/

/-- `tdiv(b, a) = sign(b) * sign(a) * floor(|b| / |a|)`: the quotient rounded toward zero (R10). -/
def tdiv (b a : Int) : Int := b.sign * a.sign * ((b.natAbs / a.natAbs : Nat) : Int)

/-! ### Taking a terminal condition

"What taking a terminal condition does. It writes `status <- Terminated(r)` and nothing else" (R173). There is no vector,
no saved state and no return (R174): only HostReset (HostInterface.lean) puts `status` back to Running. -/

/-- Latches a result (R33, R173). -/
def State.terminate (s : State) (r : Result) : State := { s with status := .terminated r }

/-- `raise X(info)` (R96): seen from the state `s` at the start of the step, only `status` changes. -/
def State.raise (s : State) (f : Fault) : State := s.terminate (.fault f)

/-- Ends the operation of an instruction that began in `s`: either all its writes are committed (R97) or it raised a
fault, and then every write it had made is discarded (R96). Both are next states. -/
def State.commit (s : State) : Except Fault State → Host.Outcome State Fault Refusal
  | .ok t => .next t
  | .error f => .next (s.raise f)

/-! ### The parts of a step -/

/-- Lines 1 and 2 of the step (R100): fetch the cell at `pc` through the bounds-checked read and decode it. -/
def State.fetchDecode (s : State) : Except Fault Instr :=
  match s.memRead s.pc with
  | .error f => .error f
  | .ok c =>
    match decode s.params.opc c with
    | none => .error (.unknownOpcode c s.pc)
    | some i => .ok i

/-- Line 4 of the step (R100): after a committed instruction, `pc ≥ M` latches `EndOfProgram` (R103). A fault that was
latched stops the step before this test. -/
def State.endTest (s : State) : State :=
  match s.status with
  | .terminated _ => s
  | .running => if (s.params.memSize : Int) ≤ s.pc then s.terminate .endOfProgram else s

/-- The end test applied to the outcome of an instruction's operation. -/
def afterExec : Host.Outcome State Fault Refusal → Host.Outcome State Fault Refusal
  | .next t => .next t.endTest
  | .fault r => .fault r
  | .refused r => .refused r

end Sys2Proof.Machine
end

