-- ==== Sys2Proof/Machine/Flags.lean ====
section
/-! DEFINITION. The engine has no status flags, condition codes or predicate registers (spec R35): a comparison returns
its outcome as a cell and a conditional takes its condition as a cell. These two conventions are all there is. -/

namespace Sys2Proof.Machine

/-- The outcome of DS_EQ as a cell value: 1 if equal, else 0 (R129). "True is the cell value 1, not -1". -/
def equalityFlag (b a : Int) : Int := if a = b then 1 else 0

/-- IF's condition: "Any non-zero cell value is true, negative values included" (R140). -/
def conditionHolds (cond : Int) : Bool := decide (cond ≠ 0)

end Sys2Proof.Machine
end

