-- ==== Sys2Proof/Machine/Operands.lean ====
section
/-! DEFINITION. Where the instructions take their operands from (spec R78, R79): the top of a stack, the two top cells of
a stack, the cell after a LITERAL, and the target an IF finds by scanning. These are all the operand forms of the
engine; an instruction names no operand location (R20) and every address is absolute (R114). -/

namespace Sys2Proof.Machine

/-- Pops two operands from a stack: `a` (the top) first, then `b` (the cell under it) (R14, R111, R125). -/
def State.popTwo (s : State) (k : StackId) : Except Fault (Int × Int × State) := do
  let (a, s1) ← s.pop k
  let (b, s2) ← s1.pop k
  return (a, b, s2)

/-- The operand cell of a LITERAL: the cell at `P + 1`, verbatim (R78, R120). -/
def State.literalOperand (s : State) : Except Fault Int := s.memRead (s.pc + 1)

/-- The loop of `ScanThen` (R141) from address `t` with `fuel` cells left below `M`: a bounds-checked read, a comparison
of the raw cell with `OPC.THEN`, the next address. -/
def State.scanFrom (s : State) (t : Int) : Nat → Except Fault Int
  | 0 => .error (.addressOutOfBounds t)
  | fuel + 1 => do
    let c ← s.memRead t
    if c = s.params.opc.then_ then return t else s.scanFrom (t + 1) fuel

/-- `ScanThen(P)` (R141): the least address above `P` whose cell equals `OPC.THEN`, or `AddressOutOfBounds(M)`. -/
def State.scanThen (s : State) (P : Int) : Except Fault Int :=
  s.scanFrom (P + 1) (s.params.memSize - (P + 1)).toNat

end Sys2Proof.Machine
end

