-- ==== Sys2Proof/Machine/Arithmetic.lean ====
section
/-! DEFINITION. DS_ADD, DS_SUB, DS_MUL, DS_DIV, DS_EQ (spec 44_arithmetic.md, R125 to R135): two operands from the data
stack, an exact integer result, one push that reduces it (R130). -/

namespace Sys2Proof.Machine

/-- A two-operand instruction (R125 to R129): pop `a`, pop `b`, compute `op b a` exactly or raise, push, `pc <- P + 1`.
"the second-popped value is the left operand". -/
def State.binary (s : State) (op : Int → Int → Except Fault Int) : Except Fault State := do
  let (a, b, s1) ← s.popTwo .ds
  let r ← op b a
  let s2 ← s1.push .ds r
  return s2.advance 1

/-- The quotient of DS_DIV, or `DivisionByZero` when the divisor is zero (R128). -/
def quotient (b a : Int) : Except Fault Int := if a = 0 then .error .divisionByZero else .ok (tdiv b a)

/-- DS_ADD: DS `( b a -- b+a )` (R125). -/
def execDsAdd (s : State) : Host.Outcome State Fault Refusal := s.commit (s.binary fun b a => .ok (b + a))

/-- DS_SUB: DS `( b a -- b-a )` (R126). -/
def execDsSub (s : State) : Host.Outcome State Fault Refusal := s.commit (s.binary fun b a => .ok (b - a))

/-- DS_MUL: DS `( b a -- b*a )` (R127). -/
def execDsMul (s : State) : Host.Outcome State Fault Refusal := s.commit (s.binary fun b a => .ok (b * a))

/-- DS_DIV: DS `( b a -- b/a )`, truncating toward zero (R128). -/
def execDsDiv (s : State) : Host.Outcome State Fault Refusal := s.commit (s.binary quotient)

/-- DS_EQ: DS `( b a -- flag )` (R129). -/
def execDsEq (s : State) : Host.Outcome State Fault Refusal := s.commit (s.binary fun b a => .ok (equalityFlag b a))

end Sys2Proof.Machine
end

