-- ==== Sys2Proof/Machine/Control.lean ====
section
/-! DEFINITION. IF, THEN, JUMP (spec 45_control.md, R140 to R145): all the control transfers of the engine (R144). -/

namespace Sys2Proof.Machine

/-- IF (R140): pop the condition; non-zero continues at `P + 1`, zero resumes at the THEN that the scan finds. -/
def State.branchIf (s : State) : Except Fault State := do
  let (cond, s1) ← s.pop .ds
  if conditionHolds cond then
    return s1.advance 1
  else
    let target ← s1.scanThen s.pc
    return s1.setPc target

/-- JUMP (R143): pop the offset; it counts from the JUMP's own address. -/
def State.jumpRelative (s : State) : Except Fault State := do
  let (offset, s1) ← s.pop .ds
  return s1.setPc (s.pc + offset)

/-- IF: DS `( cond -- )` (R140). -/
def execIf (s : State) : Host.Outcome State Fault Refusal := s.commit s.branchIf

/-- THEN: "marks the end of an `IF` block; no-op" (R142). -/
def execThen (s : State) : Host.Outcome State Fault Refusal := s.commit (.ok (s.advance 1))

/-- JUMP: DS `( offset -- )` (R143). -/
def execJump (s : State) : Host.Outcome State Fault Refusal := s.commit s.jumpRelative

end Sys2Proof.Machine
end

