-- ==== Sys2Proof/Machine/Literal.lean ====
section
/-! DEFINITION. LITERAL (spec 43_literal.md, R120). -/

namespace Sys2Proof.Machine

/-- LITERAL: read the operand cell, push it, `pc <- P + 2`; the operand read is checked before the push (R120). -/
def State.pushLiteral (s : State) : Except Fault State := do
  let v ← s.literalOperand
  let s1 ← s.push .ds v
  return s1.advance 2

/-- LITERAL: DS `( -- literal )` (R120). -/
def execLiteral (s : State) : Host.Outcome State Fault Refusal := s.commit s.pushLiteral

end Sys2Proof.Machine
end

