-- ==== Sys2Proof/Machine/MemoryAccess.lean ====
section
/-! DEFINITION. The loads and stores DS_FETCH, DS_STORE, RS_FETCH, RS_STORE (spec 42_memory_access.md, R110 to R116).
The RS pair is the DS pair "with the return stack in the place of the data stack" (R112, R113). -/

namespace Sys2Proof.Machine

/-- A load through stack `k` (R110, R112): pop the address, read, push the value on the same stack. -/
def State.load (s : State) (k : StackId) : Except Fault State := do
  let (addr, s1) ← s.pop k
  let v ← s1.memRead addr
  let s2 ← s1.push k v
  return s2.advance 1

/-- A store through stack `k` (R111, R113): pop the address, pop the value, write. -/
def State.store (s : State) (k : StackId) : Except Fault State := do
  let (addr, value, s1) ← s.popTwo k
  let s2 ← s1.memWrite addr value
  return s2.advance 1

/-- DS_FETCH: DS `( addr -- value )` (R110). -/
def execDsFetch (s : State) : Host.Outcome State Fault Refusal := s.commit (s.load .ds)

/-- DS_STORE: DS `( value addr -- )` (R111). -/
def execDsStore (s : State) : Host.Outcome State Fault Refusal := s.commit (s.store .ds)

/-- RS_FETCH: RS `( addr -- value )`; DS is not touched (R112). -/
def execRsFetch (s : State) : Host.Outcome State Fault Refusal := s.commit (s.load .rs)

/-- RS_STORE: RS `( value addr -- )`; DS is not touched (R113). -/
def execRsStore (s : State) : Host.Outcome State Fault Refusal := s.commit (s.store .rs)

end Sys2Proof.Machine
end

