-- ==== Sys2Proof/Machine/Sequencer.lean ====
section
/-! DEFINITION. NOOP (spec 41_execution_loop.md, R104). -/

namespace Sys2Proof.Machine

/-- NOOP: `pc <- P + 1`, "no effect" (R104). -/
def execNoop (s : State) : Host.Outcome State Fault Refusal := s.commit (.ok (s.advance 1))

end Sys2Proof.Machine
end

