-- ==== Sys2Proof/Machine/Dispatch.lean ====
section
/-! DEFINITION. One arm per instruction: the operation that line 3 of the step performs (spec R100). -/

namespace Sys2Proof.Machine

def exec (i : Instr) (s : State) : Host.Outcome State Fault Refusal :=
  match i with
  | .noop => Sys2Proof.Machine.execNoop s
  | .dsFetch => Sys2Proof.Machine.execDsFetch s
  | .dsStore => Sys2Proof.Machine.execDsStore s
  | .rsFetch => Sys2Proof.Machine.execRsFetch s
  | .rsStore => Sys2Proof.Machine.execRsStore s
  | .literal => Sys2Proof.Machine.execLiteral s
  | .dsAdd => Sys2Proof.Machine.execDsAdd s
  | .dsSub => Sys2Proof.Machine.execDsSub s
  | .dsMul => Sys2Proof.Machine.execDsMul s
  | .dsDiv => Sys2Proof.Machine.execDsDiv s
  | .dsEq => Sys2Proof.Machine.execDsEq s
  | .if_ => Sys2Proof.Machine.execIf s
  | .then_ => Sys2Proof.Machine.execThen s
  | .jump => Sys2Proof.Machine.execJump s

end Sys2Proof.Machine
end

