-- ==== Sys2Proof/Machine/Step.lean ====
section
/-! DEFINITION. One step of the fetch-decode-execute loop (spec R100, R102), and the placing of an instruction where the
step fetches it. -/

namespace Sys2Proof.Machine

/-- The step (R100). A terminated engine does not change (R102). A fetch or decode fault is latched with no other
change; otherwise the decoded instruction is executed and the end test is made on the `pc` it wrote. -/
def step (s : State) : Host.Outcome State Fault Refusal :=
  match s.status with
  | .terminated _ => .next s
  | .running =>
    match s.fetchDecode with
    | .error f => .next (s.raise f)
    | .ok i => afterExec (exec i s)

/-- Puts cell value `v` at address `a` when there is such a cell. -/
def State.placeCell (s : State) (a v : Int) : State :=
  if s.InBounds a then { s with mem := s.mem.write a.toNat v } else s

/-- `s` with the two cells of the instruction whose bits are `w` (the bits from `nbits` up zero) at `pc` and `pc + 1`,
and the status latch Running, so that the next step fetches exactly that instruction. It stands for the host's load of
a program (R194; log entry 4). -/
def State.withFetchWord (s : State) (nbits w : Nat) : State :=
  { (s.placeCell s.pc (wordCell s.params.width nbits w 0)).placeCell (s.pc + 1) (wordCell s.params.width nbits w 1) with
    status := .running }

end Sys2Proof.Machine
end

