-- ==== Sys2Proof/Machine/HostInterface.lean ====
section
/-! DEFINITION. The seven host transactions (spec 46_host_interface.md, R150 to R163), each "a function on the state"
(R163), the construction of an engine (R8), and the launch of a run (R159, R194). -/

namespace Sys2Proof.Machine

/-! ### Construction and reset -/

/-- Building an engine: a parameter set that breaks a constraint of R8 is refused; otherwise the engine starts in its
reset state, "equal to construction" (R190, D10). -/
def construct (p : Params) : Host.Outcome State Fault Refusal :=
  if p.WellFormed then .next (State.resetWith p) else .refused .notAConfiguration

/-- `flush` of a stack: "resets every cell to zero and the pointer to -1" (R39); performed only inside HostReset. -/
def State.flush (s : State) (k : StackId) : State := s.setStack k (Stack.empty s.params.depth)

/-- HostReset (R150): every cell 0, both stacks flushed, `pc <- PROGRAM_OFFSET`, `status <- Running`. -/
def hostReset (s : State) : State :=
  { (s.flush .ds).flush .rs with mem := [], pc := s.params.programOffset, status := .running }

/-! ### Loading and preloading: the state after, and what the host is told (`none`: the transaction was performed) -/

/-- Answers a transaction that is one primitive operation: refused without effect, with the fault told to the host and
`status` unchanged (R151, R153). -/
def State.answer (s : State) : Except Fault State → State × Option Fault
  | .ok t => (t, none)
  | .error f => (s, some f)

/-- HostLoad(addr, v): `MemWrite(addr, 1, v)` (R151). -/
def hostLoad (s : State) (a v : Int) : State × Option Fault := s.answer (s.memWrite a v)

/-- HostPreload(S, v): `Push(S, v)` (R153). -/
def hostPreload (s : State) (k : StackId) (v : Int) : State × Option Fault := s.answer (s.push k v)

/-- A launch transaction: those that may stand between HostReset and the first step of a run (R159, R160). -/
inductive LaunchTransaction where
  | load (addr v : Int)
  | preload (k : StackId) (v : Int)
deriving DecidableEq, Repr

/-- Performs a launch transaction, refused ones without effect (R159). -/
def LaunchTransaction.perform (s : State) : LaunchTransaction → State
  | .load a v => (hostLoad s a v).1
  | .preload k v => (hostPreload s k v).1

/-- The launch state: one HostReset, then loads and preloads in any order (R159, R194). -/
def launch (s : State) (ts : List LaunchTransaction) : State := ts.foldl LaunchTransaction.perform (hostReset s)

/-- The loads that place a program image "contiguously starting at the program offset" (R152, R194). -/
def imageLoads (p : Params) (image : List Int) : List LaunchTransaction :=
  image.mapIdx fun k c => .load (p.programOffset + k) c

/-! ### Stepping and running -/

/-- HostStep (R155): one step if Running, nothing otherwise; returns the new `status`. (`step` always answers a next
state, so the two other outcomes are never met: Laws/Step.lean.) -/
def hostStep (s : State) : State × Status :=
  match step s with
  | .next t => (t, t.status)
  | .fault _ => (s, s.status)
  | .refused _ => (s, s.status)

/-- The result that a status holds, if any. -/
def Status.result : Status → Option Result
  | .running => none
  | .terminated r => some r

/-- HostRun under fuel (R154, R107): at most `n` steps, until `status` is not Running; the result, or none if the run
has not ended within `n` steps. On a terminated engine it returns the latched result at once. -/
def hostRun : Nat → State → State × Option Result
  | 0, s => (s, s.status.result)
  | n + 1, s =>
    match s.status with
    | .terminated r => (s, some r)
    | .running => hostRun n (hostStep s).1

/-! ### Inspection: functions that leave the state alone -/

/-- What the host may ask to see (R156). -/
inductive Probe where
  | mem (a : Int)
  | stackCell (k : StackId) (i : Int)
  | stackPointer (k : StackId)
  | pc
  | status
deriving DecidableEq, Repr

/-- What the host is shown (R156). -/
inductive Reading where
  | integer (v : Int)
  | status (st : Status)
deriving DecidableEq, Repr

/-- HostInspect (R156). A probe outside the ranges the rule names is no request of the interface and is answered by
nothing (DESIGN CHOICE, log entry 6). -/
def hostInspect (s : State) : Probe → Option Reading
  | .mem a => if s.InBounds a then some (.integer (s.mem.read a.toNat)) else none
  | .stackCell k i => if 0 ≤ i ∧ i < s.params.depth then some (.integer ((s.stack k).cell i)) else none
  | .stackPointer k => some (.integer (s.stack k).sp)
  | .pc => some (.integer s.pc)
  | .status => some (.status s.status)

/-- HostDump(start, count) (R157): the pairs `(a, mem[a])` in rising order; if an address is out of bounds, no pairs and
`AddressOutOfBounds` of the least such address. -/
def hostDump (s : State) (start : Int) : Nat → Except Fault (List (Int × Int))
  | 0 => .ok []
  | n + 1 => do
    let v ← s.memRead start
    let rest ← hostDump s (start + 1) n
    return (start, v) :: rest

/-! ### The status as a number -/

/-- The numeric result codes (R166). -/
def Status.code : Status → Nat
  | .running => 0
  | .terminated .endOfProgram => 1
  | .terminated (.fault (.unknownOpcode _ _)) => 2
  | .terminated (.fault (.stackOverflow _)) => 3
  | .terminated (.fault (.stackUnderflow _)) => 4
  | .terminated (.fault (.addressOutOfBounds _)) => 5
  | .terminated (.fault .divisionByZero) => 6

end Sys2Proof.Machine
end

