-- ==== Sys2Proof/Safety.lean ====
section
/-! DEFINITION. What counts as a sound state and a safe run (spec R22, R25, R26, R32, R108, R183), in the terms the
obligations use. -/

namespace Sys2Proof

/-- How many cells an instruction pops from a stack (R27, R28): the `k` of R99. -/
def Instr.popCount (i : Instr) : Machine.StackId → Nat
  | .ds =>
    match i with
    | .noop | .then_ | .literal | .rsFetch | .rsStore => 0
    | .dsFetch | .if_ | .jump => 1
    | .dsStore | .dsAdd | .dsSub | .dsMul | .dsDiv | .dsEq => 2
  | .rs =>
    match i with
    | .rsFetch => 1
    | .rsStore => 2
    | .noop | .dsFetch | .dsStore | .literal | .dsAdd | .dsSub | .dsMul | .dsDiv | .dsEq | .if_ | .then_ | .jump => 0

end Sys2Proof

namespace Sys2Proof.Machine

/-- A stack at an instruction boundary: `D` cells, `-1 ≤ sp < D` (R25), every cell a cell value (R22), and zeros above
the top (R26). -/
abbrev Stack.Inv (W D : Nat) (st : Stack) : Prop :=
  st.cells.length = D ∧ (-1 ≤ st.sp ∧ st.sp < D) ∧ (∀ v ∈ st.cells, InCellRange W v) ∧
    ∀ i < D, st.sp < (i : Int) → st.cells.getD i 0 = 0

/-- Memory: canonical form, addresses in `[0, M-1]` (R50), every cell a cell value (R22). -/
abbrev Memory.Inv (W M : Nat) (m : Memory) : Prop :=
  m.wf ∧ ∀ e ∈ m, e.1 < M ∧ InCellRange W e.2

/-- The range of `pc` (R32). -/
abbrev State.PcInv (s : State) : Prop :=
  minCell s.params.width ≤ s.pc ∧ s.pc ≤ (s.params.memSize : Int) - 1 + maxCell s.params.width

/-- What a latched result says of the state it was latched in (R103, R108, R165 to R170): while Running, `pc < M`; at
`EndOfProgram`, `pc ≥ M`; at a fault, `pc < M` and the fault's record agrees with the state, which is that before the
faulting instruction. -/
def State.statusAgrees (s : State) : Bool :=
  match s.status with
  | .running => decide (s.pc < s.params.memSize)
  | .terminated .endOfProgram => decide ((s.params.memSize : Int) ≤ s.pc)
  | .terminated (.fault f) =>
    decide (s.pc < s.params.memSize) &&
    match f with
    | .unknownOpcode c a =>
      decide (a = s.pc ∧ 0 ≤ a ∧ c = s.mem.read a.toNat ∧ decode s.params.opc c = none)
    | .addressOutOfBounds a => decide (¬ s.InBounds a)
    | .stackOverflow k => decide (k = .ds ∧ s.ds.sp = (s.params.depth : Int) - 1)
    | .stackUnderflow k => decide ((s.stack k).sp < 1)
    | .divisionByZero => decide (1 ≤ s.ds.sp ∧ s.ds.top = 0)

/-- The invariant of the engine at every instruction boundary. -/
abbrev State.Inv (s : State) : Prop :=
  s.params.WellFormed ∧ s.mem.Inv s.params.width s.params.memSize ∧ s.ds.Inv s.params.width s.params.depth ∧
    s.rs.Inv s.params.width s.params.depth ∧ s.PcInv ∧ s.statusAgrees = true

/-- The run has ended with one of the five faults (R17). -/
abbrev State.Faulted (s : State) : Prop := ∃ f, s.status = .terminated (.fault f)

/-- The run "ended normally" (R108). -/
abbrev State.EndedNormally (s : State) : Prop := s.status = .terminated .endOfProgram

/-- A safe run (R183): from `s`, within `n` steps, the run ends with `EndOfProgram`. -/
def RunsSafely (n : Nat) (s : State) : Prop := (hostRun n s).2 = some .endOfProgram

/-! ### Vocabulary of the obligations -/

/-- Pushes a list of values on one stack, first value first. -/
def State.pushAll (s : State) (k : StackId) : List Int → Except Fault State
  | [] => .ok s
  | v :: vs => do
    let t ← s.push k v
    t.pushAll k vs

/-- Pops `n` values from one stack, in the order they come off it. -/
def State.popAll (s : State) (k : StackId) : Nat → Except Fault (List Int × State)
  | 0 => .ok ([], s)
  | n + 1 => do
    let (v, t) ← s.pop k
    let (vs, u) ← t.popAll k n
    return (v :: vs, u)

/-- The state of an engine that differs in the three offsets only (R41). -/
def State.withOffsets (s : State) (program tib dictionary : Int) : State :=
  { s with params := { s.params with
    programOffset := program, tibOffset := tib, dictionaryOffset := dictionary } }

end Sys2Proof.Machine
end

