-- ==== Sys2Proof/Certificates/Slice0/Obligations.lean ====
section
/-! DEFINITION. The statements for the provers: the spec's numbered rules as propositions about the model. `s.Inv` is the
engine's invariant at an instruction boundary (Safety.lean); that it holds after reset and that every step keeps it are
statements of their own. In every statement about an instruction the record update on the right names all that changes:
a field it does not name is unchanged. -/

open Sys2Proof Sys2Proof.Machine

/-! ### The cell -/

/-- R90 (the spec marks the symmetric reduction as its decision D2): `wrap_W(v)` is the one cell value congruent to `v`
modulo `2^W`, and the second closed form of the rule. -/
def Obligations.WrapIsTheUniqueCongruentCellValue : Prop :=
  ∀ (W : Nat) (v : Int), 2 ≤ W →
    InCellRange W (wrap W v) ∧ cellModulus W ∣ wrap W v - v ∧
    (∀ r, InCellRange W r → cellModulus W ∣ r - v → r = wrap W v) ∧
    wrap W v = (v + ((2 ^ (W - 1) : Nat) : Int)) % cellModulus W - ((2 ^ (W - 1) : Nat) : Int)

/-- R91, laws (b) to (f), which the spec marks as derived from R90: round trip, idempotence, congruence of the three
operations, agreement with the repeated subtraction above `MAX`, the values at the edges. -/
def Obligations.WrapLawsAtTheEdgesAndUnderArithmetic : Prop :=
  ∀ (W : Nat) (v x y : Int), 2 ≤ W →
    (InCellRange W v → wrap W v = v) ∧
    wrap W (wrap W v) = wrap W v ∧
    wrap W v % cellModulus W = v % cellModulus W ∧
    wrap W (x + y) = wrap W (wrap W x + wrap W y) ∧
    wrap W (x - y) = wrap W (wrap W x - wrap W y) ∧
    wrap W (x * y) = wrap W (wrap W x * wrap W y) ∧
    (∀ n : Nat, maxCell W < v → v - n * cellModulus W ≤ maxCell W →
      (∀ m : Nat, m < n → maxCell W < v - m * cellModulus W) → v - n * cellModulus W = wrap W v) ∧
    wrap W (maxCell W + 1) = minCell W ∧ wrap W (minCell W - 1) = maxCell W ∧
    wrap W (cellModulus W) = 0 ∧ wrap W (-cellModulus W) = 0

/-- R131 (which the spec marks as derived): addition, subtraction and multiplication of cells are those of a `W`-bit
two's-complement adder, subtractor and multiplier. -/
def Obligations.ArithmeticIsTwosComplement : Prop :=
  ∀ (W : Nat) (b a : Int), 2 ≤ W →
    wrap W (b + a) = (BitVec.ofInt W b + BitVec.ofInt W a).toInt ∧
    wrap W (b - a) = (BitVec.ofInt W b - BitVec.ofInt W a).toInt ∧
    wrap W (b * a) = (BitVec.ofInt W b * BitVec.ofInt W a).toInt

/-- R22's bit image (the spec's decision D18): the unsigned image of a cell value fits `W` bits and `sext_W` gives the
value back. -/
def Obligations.BitImageDeterminesTheCell : Prop :=
  ∀ (W : Nat) (v : Int), 2 ≤ W → InCellRange W v →
    bitImage W v < 2 ^ W ∧ sext W (bitImage W v) = v ∧
    (bitImage W v : Int) = if 0 ≤ v then v else v + cellModulus W

/-- R132: for `a ≠ 0` the quotient is the one of truncating division, with the signs of the rule, and the stored result
is the quotient itself except for `MIN / -1`. -/
def Obligations.DivisionTruncatesTowardZero : Prop :=
  ∀ (W : Nat) (b a : Int), 2 ≤ W → InCellRange W b → InCellRange W a → a ≠ 0 →
    (∃ r, b = tdiv b a * a + r ∧ |r| < |a| ∧ (r = 0 ∨ r.sign = b.sign)) ∧
    (|b| < |a| → tdiv b a = 0) ∧
    (|a| ≤ |b| → (tdiv b a).sign = b.sign * a.sign) ∧
    (¬ (b = minCell W ∧ a = -1) → wrap W (tdiv b a) = tdiv b a) ∧
    (b = minCell W → a = -1 → wrap W (tdiv b a) = minCell W)

/-! ### The stack controller and the memory path -/

/-- R92: a push on a full stack fails; otherwise the reduced value goes above the top and no other cell changes, and a
pop immediately afterward returns the reduced value. -/
def Obligations.PushWritesTheCellAboveTheTop : Prop :=
  ∀ (s : State) (k : StackId) (v : Int), (s.stack k).Inv s.params.width s.params.depth →
    ((s.params.depth : Int) - 1 ≤ (s.stack k).sp → s.push k v = .error (.stackOverflow k)) ∧
    ((s.stack k).sp < (s.params.depth : Int) - 1 → ∃ t, s.push k v = .ok t ∧
      (t.stack k).sp = (s.stack k).sp + 1 ∧ (t.stack k).top = wrap s.params.width v ∧
      (∀ i, i ≠ (s.stack k).sp + 1 → (t.stack k).cell i = (s.stack k).cell i) ∧
      (∀ j, j ≠ k → t.stack j = s.stack j) ∧
      t.params = s.params ∧ t.mem = s.mem ∧ t.pc = s.pc ∧ t.status = s.status ∧
      t.pop k = .ok (wrap s.params.width v, s))

/-- R93: a pop of an empty stack fails; otherwise it returns the top, zeroes its cell and changes no other cell; and any
sequence of pushes that the stack has room for (one push among them) comes off in reverse order, each value reduced, and
leaves the state exactly as it was. -/
def Obligations.PopsReturnPushesInReverseOrder : Prop :=
  ∀ (s : State) (k : StackId), (s.stack k).Inv s.params.width s.params.depth →
    ((s.stack k).sp = -1 → s.pop k = .error (.stackUnderflow k)) ∧
    (0 ≤ (s.stack k).sp → ∃ t, s.pop k = .ok ((s.stack k).cell (s.stack k).sp, t) ∧
      (t.stack k).sp = (s.stack k).sp - 1 ∧ (t.stack k).cell (s.stack k).sp = 0 ∧
      (∀ i, i ≠ (s.stack k).sp → (t.stack k).cell i = (s.stack k).cell i) ∧
      (∀ j, j ≠ k → t.stack j = s.stack j) ∧
      t.params = s.params ∧ t.mem = s.mem ∧ t.pc = s.pc ∧ t.status = s.status) ∧
    ∀ vs : List Int, (s.stack k).sp + vs.length ≤ (s.params.depth : Int) - 1 →
      ∃ t, s.pushAll k vs = .ok t ∧ t.popAll k vs.length = .ok ((vs.map (wrap s.params.width)).reverse, s)

/-- R51, R94, R95: both accesses accept exactly `0 ≤ a < M`; a read returns the cell; a write puts `wrap_W(v)` there and
changes no other cell and no other state. -/
def Obligations.MemoryAccessIsCheckedAndChangesOneCell : Prop :=
  ∀ (s : State) (a v : Int), s.mem.Inv s.params.width s.params.memSize →
    (a < 0 ∨ (s.params.memSize : Int) ≤ a →
      s.memRead a = .error (.addressOutOfBounds a) ∧ s.memWrite a v = .error (.addressOutOfBounds a)) ∧
    (0 ≤ a → a < s.params.memSize → s.memRead a = .ok (s.mem.read a.toNat) ∧
      ∃ t, s.memWrite a v = .ok t ∧ t.memRead a = .ok (wrap s.params.width v) ∧
        (∀ b, b ≠ a → t.memRead b = s.memRead b) ∧ t = { s with mem := t.mem })

/-! ### Encoding -/

/-- Encoding and decoding agree: a well-formed whole instruction, followed by anything, decodes to itself and leaves
what follows. -/
def Obligations.DecodeOfEncodeIsTheInstruction : Prop :=
  ∀ (p : Params) (c : Code) (rest : List Int), p.WellFormed → c.WellFormed p.width →
    decodeCode p.opc (encode p.opc c ++ rest) = some (c, rest)

/-- The other direction: what the decoder reads from an image is of a legal format, and its encoding is the cells that
were read. -/
def Obligations.EncodeOfDecodeIsTheCells : Prop :=
  ∀ (p : Params) (cells : List Int) (c : Code) (rest : List Int), (∀ v ∈ cells, InCellRange p.width v) →
    decodeCode p.opc cells = some (c, rest) → c.WellFormed p.width ∧ encode p.opc c ++ rest = cells

/-- R72: the decoder answers NAME exactly on `OPC.NAME`, and a negative cell is never registered. -/
def Obligations.DecodingComparesTheWholeCell : Prop :=
  ∀ (p : Params) (c : Int), p.WellFormed →
    (∀ i, decode p.opc c = some i ↔ c = p.opc.code i) ∧
    ((∀ i, c ≠ p.opc.code i) → decode p.opc c = none) ∧
    (c < 0 → decode p.opc c = none)

/-- With the default map (the spec's decision D1) the illegal cell values are exactly those below 0 and above 13. -/
def Obligations.StandardMapIsSparse : Prop :=
  ∀ c : Int, decode OpcodeMap.standard c = none ↔ c < 0 ∨ 13 < c

/-- A few words of the table, written out from R74 (the numbers are the spec's decision D1), decode to their
instructions, and a word that is no row does not decode. R84 numbers single cells of 32 bits: that the two cells of
LITERAL are packed in one number, the first cell low, and that an operand cell without bits is 0, is the model's own
(log entry 9). -/
def Obligations.TableWordsDecode : Prop :=
  decodeTableWord 32 0x00000000 = some .noop ∧ decodeTableWord 32 0x00000004 = some .rsStore ∧
  decodeTableWord 32 0x00000005 = some .literal ∧ decodeTableWord 64 0x0000002A00000005 = some .literal ∧
  decodeTableWord 32 0x00000009 = some .dsDiv ∧ decodeTableWord 32 0x0000000D = some .jump ∧
  decodeTableWord 32 0x0000000E = none ∧ decodeTableWord 32 0xFFFFFFFF = none

/-! ### The instructions

In each, the first clause is the encoding, the next ones the exceptions in their order, the last ones the effect. -/

/-- R104, R142: NOOP and THEN advance `pc` by one in every state and change nothing else; executed from the last cell,
either ends the run normally with `pc = M`. -/
def Obligations.NoopAndThenOnlyAdvance : Prop :=
  ∀ s : State,
    exec .noop s = .next { s with pc := s.pc + 1 } ∧ exec .then_ s = .next { s with pc := s.pc + 1 } ∧
    (s.params.WellFormed → decode s.params.opc s.params.opc.noop = some .noop ∧
      decode s.params.opc s.params.opc.then_ = some .then_ ∧
      (s.status = .running → s.pc = (s.params.memSize : Int) - 1 →
        s.mem.read s.pc.toNat = s.params.opc.noop ∨ s.mem.read s.pc.toNat = s.params.opc.then_ →
        step s = .next { s with pc := s.params.memSize, status := .terminated .endOfProgram }))

/-- R110. -/
def Obligations.DsFetchReplacesTheAddressByTheCell : Prop :=
  ∀ s : State, s.Inv →
    decode s.params.opc s.params.opc.dsFetch = some .dsFetch ∧
    (s.ds.sp < 0 → exec .dsFetch s = .next (s.raise (.stackUnderflow .ds))) ∧
    (0 ≤ s.ds.sp → ¬ s.InBounds s.ds.top → exec .dsFetch s = .next (s.raise (.addressOutOfBounds s.ds.top))) ∧
    (0 ≤ s.ds.sp → s.InBounds s.ds.top → exec .dsFetch s = .next { s with
      ds := ⟨s.ds.cells.set s.ds.sp.toNat (s.mem.read s.ds.top.toNat), s.ds.sp⟩
      pc := s.pc + 1 })

/-- R111. The stored value needs no reduction: it is a cell value. -/
def Obligations.DsStoreWritesTheSecondAtTheTop : Prop :=
  ∀ s : State, s.Inv →
    decode s.params.opc s.params.opc.dsStore = some .dsStore ∧
    (s.ds.sp < 1 → exec .dsStore s = .next (s.raise (.stackUnderflow .ds))) ∧
    (1 ≤ s.ds.sp → ¬ s.InBounds s.ds.top → exec .dsStore s = .next (s.raise (.addressOutOfBounds s.ds.top))) ∧
    (1 ≤ s.ds.sp → s.InBounds s.ds.top → exec .dsStore s = .next { s with
      mem := s.mem.write s.ds.top.toNat (s.ds.cell (s.ds.sp - 1))
      ds := ⟨(s.ds.cells.set s.ds.sp.toNat 0).set (s.ds.sp - 1).toNat 0, s.ds.sp - 2⟩
      pc := s.pc + 1 })

/-- R112 (the spec marks the reading "return stack for pop and push alike" as its decision D14). -/
def Obligations.RsFetchReplacesTheAddressByTheCell : Prop :=
  ∀ s : State, s.Inv →
    decode s.params.opc s.params.opc.rsFetch = some .rsFetch ∧
    (s.rs.sp < 0 → exec .rsFetch s = .next (s.raise (.stackUnderflow .rs))) ∧
    (0 ≤ s.rs.sp → ¬ s.InBounds s.rs.top → exec .rsFetch s = .next (s.raise (.addressOutOfBounds s.rs.top))) ∧
    (0 ≤ s.rs.sp → s.InBounds s.rs.top → exec .rsFetch s = .next { s with
      rs := ⟨s.rs.cells.set s.rs.sp.toNat (s.mem.read s.rs.top.toNat), s.rs.sp⟩
      pc := s.pc + 1 })

/-- R113 (decision D14, as R112). -/
def Obligations.RsStoreWritesTheSecondAtTheTop : Prop :=
  ∀ s : State, s.Inv →
    decode s.params.opc s.params.opc.rsStore = some .rsStore ∧
    (s.rs.sp < 1 → exec .rsStore s = .next (s.raise (.stackUnderflow .rs))) ∧
    (1 ≤ s.rs.sp → ¬ s.InBounds s.rs.top → exec .rsStore s = .next (s.raise (.addressOutOfBounds s.rs.top))) ∧
    (1 ≤ s.rs.sp → s.InBounds s.rs.top → exec .rsStore s = .next { s with
      mem := s.mem.write s.rs.top.toNat (s.rs.cell (s.rs.sp - 1))
      rs := ⟨(s.rs.cells.set s.rs.sp.toNat 0).set (s.rs.sp - 1).toNat 0, s.rs.sp - 2⟩
      pc := s.pc + 1 })

/-- R120. `pc` is where the opcode was fetched from, so it is in bounds. -/
def Obligations.LiteralPushesTheNextCell : Prop :=
  ∀ s : State, s.Inv → s.InBounds s.pc →
    decode s.params.opc s.params.opc.literal = some .literal ∧
    ((s.params.memSize : Int) ≤ s.pc + 1 → exec .literal s = .next (s.raise (.addressOutOfBounds (s.pc + 1)))) ∧
    (s.pc + 1 < s.params.memSize → (s.params.depth : Int) - 1 ≤ s.ds.sp →
      exec .literal s = .next (s.raise (.stackOverflow .ds))) ∧
    (s.pc + 1 < s.params.memSize → s.ds.sp < (s.params.depth : Int) - 1 → exec .literal s = .next { s with
      ds := ⟨s.ds.cells.set (s.ds.sp + 1).toNat (s.mem.read (s.pc + 1).toNat), s.ds.sp + 1⟩
      pc := s.pc + 2 })

/-- R125. -/
def Obligations.DsAddPushesTheWrappedSum : Prop :=
  ∀ s : State, s.Inv →
    decode s.params.opc s.params.opc.dsAdd = some .dsAdd ∧
    (s.ds.sp < 1 → exec .dsAdd s = .next (s.raise (.stackUnderflow .ds))) ∧
    (1 ≤ s.ds.sp → exec .dsAdd s = .next { s with
      ds := ⟨(s.ds.cells.set s.ds.sp.toNat 0).set (s.ds.sp - 1).toNat
        (wrap s.params.width (s.ds.cell (s.ds.sp - 1) + s.ds.top)), s.ds.sp - 1⟩
      pc := s.pc + 1 })

/-- R126: second-popped minus first-popped. -/
def Obligations.DsSubPushesTheWrappedDifference : Prop :=
  ∀ s : State, s.Inv →
    decode s.params.opc s.params.opc.dsSub = some .dsSub ∧
    (s.ds.sp < 1 → exec .dsSub s = .next (s.raise (.stackUnderflow .ds))) ∧
    (1 ≤ s.ds.sp → exec .dsSub s = .next { s with
      ds := ⟨(s.ds.cells.set s.ds.sp.toNat 0).set (s.ds.sp - 1).toNat
        (wrap s.params.width (s.ds.cell (s.ds.sp - 1) - s.ds.top)), s.ds.sp - 1⟩
      pc := s.pc + 1 })

/-- R127. -/
def Obligations.DsMulPushesTheWrappedProduct : Prop :=
  ∀ s : State, s.Inv →
    decode s.params.opc s.params.opc.dsMul = some .dsMul ∧
    (s.ds.sp < 1 → exec .dsMul s = .next (s.raise (.stackUnderflow .ds))) ∧
    (1 ≤ s.ds.sp → exec .dsMul s = .next { s with
      ds := ⟨(s.ds.cells.set s.ds.sp.toNat 0).set (s.ds.sp - 1).toNat
        (wrap s.params.width (s.ds.cell (s.ds.sp - 1) * s.ds.top)), s.ds.sp - 1⟩
      pc := s.pc + 1 })

/-- R128: `tdiv` is the truncating quotient of R10, and Lean's own truncating division. -/
def Obligations.DsDivPushesTheTruncatedQuotient : Prop :=
  ∀ s : State, s.Inv →
    decode s.params.opc s.params.opc.dsDiv = some .dsDiv ∧
    (s.ds.sp < 1 → exec .dsDiv s = .next (s.raise (.stackUnderflow .ds))) ∧
    (1 ≤ s.ds.sp → s.ds.top = 0 → exec .dsDiv s = .next (s.raise .divisionByZero)) ∧
    (1 ≤ s.ds.sp → s.ds.top ≠ 0 → exec .dsDiv s = .next { s with
      ds := ⟨(s.ds.cells.set s.ds.sp.toNat 0).set (s.ds.sp - 1).toNat
        (wrap s.params.width (Int.tdiv (s.ds.cell (s.ds.sp - 1)) s.ds.top)), s.ds.sp - 1⟩
      pc := s.pc + 1 })

/-- R129: true is the cell value 1, false is 0. -/
def Obligations.DsEqPushesOneOrZero : Prop :=
  ∀ s : State, s.Inv →
    decode s.params.opc s.params.opc.dsEq = some .dsEq ∧
    (s.ds.sp < 1 → exec .dsEq s = .next (s.raise (.stackUnderflow .ds))) ∧
    (1 ≤ s.ds.sp → exec .dsEq s = .next { s with
      ds := ⟨(s.ds.cells.set s.ds.sp.toNat 0).set (s.ds.sp - 1).toNat
        (if s.ds.cell (s.ds.sp - 1) = s.ds.top then 1 else 0), s.ds.sp - 1⟩
      pc := s.pc + 1 })

/-- R140, R141 (the linear scan is the spec's decision D5, its failure at `M` decision D6): a non-zero condition falls
into the block; a zero condition resumes at the first THEN cell above, or faults when there is none. -/
def Obligations.IfBranchesOnTheTopOfTheStack : Prop :=
  ∀ s : State, s.Inv → s.InBounds s.pc →
    decode s.params.opc s.params.opc.if_ = some .if_ ∧
    (s.ds.sp < 0 → exec .if_ s = .next (s.raise (.stackUnderflow .ds))) ∧
    (0 ≤ s.ds.sp → s.ds.top = 0 →
      (∀ u, s.pc < u → u < s.params.memSize → s.mem.read u.toNat ≠ s.params.opc.then_) →
      exec .if_ s = .next (s.raise (.addressOutOfBounds s.params.memSize))) ∧
    (0 ≤ s.ds.sp → s.ds.top ≠ 0 → exec .if_ s = .next { s with
      ds := ⟨s.ds.cells.set s.ds.sp.toNat 0, s.ds.sp - 1⟩
      pc := s.pc + 1 }) ∧
    (∀ T, 0 ≤ s.ds.sp → s.ds.top = 0 → s.pc < T → T < s.params.memSize →
      s.mem.read T.toNat = s.params.opc.then_ →
      (∀ u, s.pc < u → u < T → s.mem.read u.toNat ≠ s.params.opc.then_) → exec .if_ s = .next { s with
        ds := ⟨s.ds.cells.set s.ds.sp.toNat 0, s.ds.sp - 1⟩
        pc := T })

/-- R141 as a function: the scan answers the least THEN above `P`, or the bounds fault at `M`. -/
def Obligations.ScanFindsTheFirstThen : Prop :=
  ∀ (s : State) (P : Int), s.InBounds P →
    (∀ T, s.scanThen P = .ok T ↔ P < T ∧ T < s.params.memSize ∧ s.mem.read T.toNat = s.params.opc.then_ ∧
      ∀ u, P < u → u < T → s.mem.read u.toNat ≠ s.params.opc.then_) ∧
    (∀ f, s.scanThen P = .error f ↔ f = .addressOutOfBounds s.params.memSize ∧
      ∀ u, P < u → u < s.params.memSize → s.mem.read u.toNat ≠ s.params.opc.then_)

/-- R143 (the base of the offset is the spec's decision D23): the exact sum, never reduced, whatever the target. -/
def Obligations.JumpAddsTheOffsetToItsOwnAddress : Prop :=
  ∀ s : State, s.Inv →
    decode s.params.opc s.params.opc.jump = some .jump ∧
    (s.ds.sp < 0 → exec .jump s = .next (s.raise (.stackUnderflow .ds))) ∧
    (0 ≤ s.ds.sp → exec .jump s = .next { s with
      ds := ⟨s.ds.cells.set s.ds.sp.toNat 0, s.ds.sp - 1⟩
      pc := s.pc + s.ds.top })

/-- The stack pictures of R14: what each two-operand instruction, store, load, branch and LITERAL does to the elements
of the data stack, bottom first, the elements below untouched. -/
def Obligations.StackPicturesOfTheDataStack : Prop :=
  ∀ (s : State) (xs : List Int) (b a : Int), s.Inv → s.InBounds s.pc →
    (s.ds.elements = xs ++ [b, a] →
      (∃ t, exec .dsAdd s = .next t ∧ t.ds.elements = xs ++ [wrap s.params.width (b + a)] ∧ t.pc = s.pc + 1) ∧
      (∃ t, exec .dsSub s = .next t ∧ t.ds.elements = xs ++ [wrap s.params.width (b - a)] ∧ t.pc = s.pc + 1) ∧
      (∃ t, exec .dsMul s = .next t ∧ t.ds.elements = xs ++ [wrap s.params.width (b * a)] ∧ t.pc = s.pc + 1) ∧
      (a ≠ 0 → ∃ t, exec .dsDiv s = .next t ∧ t.ds.elements = xs ++ [wrap s.params.width (tdiv b a)] ∧
        t.pc = s.pc + 1) ∧
      (∃ t, exec .dsEq s = .next t ∧ t.ds.elements = xs ++ [if b = a then 1 else 0] ∧ t.pc = s.pc + 1) ∧
      (s.InBounds a → ∃ t, exec .dsStore s = .next t ∧ t.ds.elements = xs ∧ t.memRead a = .ok b ∧
        t.pc = s.pc + 1)) ∧
    (s.ds.elements = xs ++ [a] →
      (∀ v, s.memRead a = .ok v → ∃ t, exec .dsFetch s = .next t ∧ t.ds.elements = xs ++ [v] ∧ t.pc = s.pc + 1) ∧
      (a ≠ 0 → ∃ t, exec .if_ s = .next t ∧ t.ds.elements = xs ∧ t.pc = s.pc + 1) ∧
      (∃ t, exec .jump s = .next t ∧ t.ds.elements = xs ∧ t.pc = s.pc + a)) ∧
    (∀ v, s.memRead (s.pc + 1) = .ok v → s.ds.elements.length < s.params.depth →
      ∃ t, exec .literal s = .next t ∧ t.ds.elements = s.ds.elements ++ [v] ∧ t.pc = s.pc + 2)

/-- The same for the return stack (R112, R113, decision D14). -/
def Obligations.StackPicturesOfTheReturnStack : Prop :=
  ∀ (s : State) (xs : List Int) (b a : Int), s.Inv →
    (s.rs.elements = xs ++ [a] → ∀ v, s.memRead a = .ok v →
      ∃ t, exec .rsFetch s = .next t ∧ t.rs.elements = xs ++ [v] ∧ t.ds = s.ds ∧ t.pc = s.pc + 1) ∧
    (s.rs.elements = xs ++ [b, a] → s.InBounds a →
      ∃ t, exec .rsStore s = .next t ∧ t.rs.elements = xs ∧ t.memRead a = .ok b ∧ t.ds = s.ds ∧ t.pc = s.pc + 1)

/-! ### Frames -/

/-- R116: DS_STORE and RS_STORE are the only instructions that write memory; every other one leaves every cell, and no
instruction changes the parameters. -/
def Obligations.OnlyStoresWriteMemory : Prop :=
  ∀ (i : Instr) (s t : State), exec i s = .next t →
    t.params = s.params ∧ (i ≠ .dsStore → i ≠ .rsStore → ∀ a, t.memRead a = s.memRead a)

/-- R56, R111, R113: a store changes the cell at the popped address and no other; the cells of the stacks below the two
operands and all of the other stack are unchanged; a store that faults, by underflow or by its address, changes no
address and neither stack (R96, the spec's decision D3). -/
def Obligations.StoreChangesOnlyTheAddressedCell : Prop :=
  ∀ (s t : State) (a : Int), s.Inv →
    (exec .dsStore s = .next t → s.ds.top = a → (∀ b, b ≠ a → t.memRead b = s.memRead b) ∧ t.rs = s.rs ∧
      (∀ j, j < s.ds.sp - 1 → t.ds.cell j = s.ds.cell j) ∧
      (1 ≤ s.ds.sp → s.InBounds a → t.memRead a = .ok (s.ds.cell (s.ds.sp - 1))) ∧
      (s.ds.sp < 1 ∨ ¬ s.InBounds a → (∀ b, t.memRead b = s.memRead b) ∧ t.ds = s.ds)) ∧
    (exec .rsStore s = .next t → s.rs.top = a → (∀ b, b ≠ a → t.memRead b = s.memRead b) ∧ t.ds = s.ds ∧
      (∀ j, j < s.rs.sp - 1 → t.rs.cell j = s.rs.cell j) ∧
      (1 ≤ s.rs.sp → s.InBounds a → t.memRead a = .ok (s.rs.cell (s.rs.sp - 1))) ∧
      (s.rs.sp < 1 ∨ ¬ s.InBounds a → (∀ b, t.memRead b = s.memRead b) ∧ t.rs = s.rs))

/-- R27, R28: NOOP, THEN, RS_FETCH and RS_STORE do not touch DS; only RS_FETCH and RS_STORE touch RS. -/
def Obligations.StacksTouchedByTheirOwnInstructions : Prop :=
  ∀ (i : Instr) (s t : State), exec i s = .next t →
    (i ∈ [Instr.noop, .then_, .rsFetch, .rsStore] → t.ds = s.ds) ∧
    (i ≠ .rsFetch → i ≠ .rsStore → t.rs = s.rs)

/-- An instruction changes at most the two top cells of a stack and the cell above the top. -/
def Obligations.StackCellsAwayFromTheTopAreUnchanged : Prop :=
  ∀ (i : Instr) (s t : State) (k : StackId) (j : Int), exec i s = .next t →
    -1 ≤ (s.stack k).sp → j ≠ (s.stack k).sp - 1 → j ≠ (s.stack k).sp → j ≠ (s.stack k).sp + 1 →
    (t.stack k).cell j = (s.stack k).cell j

/-- R31: the new `pc` of every instruction that does not fault, and `P` for one that does. -/
def Obligations.PcAfterEachInstruction : Prop :=
  ∀ (i : Instr) (s t : State), s.Inv → s.status = .running → s.InBounds s.pc → exec i s = .next t →
    (t.status ≠ .running → t.pc = s.pc) ∧
    (t.status = .running →
      (i ≠ .literal → i ≠ .if_ → i ≠ .jump → t.pc = s.pc + 1) ∧
      (i = .literal → t.pc = s.pc + 2) ∧
      (i = .if_ → s.ds.top ≠ 0 → t.pc = s.pc + 1) ∧
      (i = .if_ → s.ds.top = 0 → s.pc < t.pc ∧ t.pc < s.params.memSize ∧
        s.mem.read t.pc.toNat = s.params.opc.then_ ∧
        ∀ u, s.pc < u → u < t.pc → s.mem.read u.toNat ≠ s.params.opc.then_) ∧
      (i = .jump → t.pc = s.pc + s.ds.top))

/-! ### Faults -/

/-- R96, R97 (the spec marks the policy as its decision D3): an instruction either commits with `status` untouched or
changes nothing but `status`. -/
def Obligations.FaultDiscardsEveryWrite : Prop :=
  ∀ (i : Instr) (s t : State), exec i s = .next t → t.status = s.status ∨ ∃ f, t = s.raise f

/-- R173: taking a terminal condition writes `status` and nothing else. After a fault the state is that before the step
with `status` latched; at `EndOfProgram` it is that after the last instruction with `status` latched. -/
def Obligations.TerminalConditionWritesOnlyStatus : Prop :=
  ∀ s t : State, s.status = .running → step s = .next t →
    (∀ f, t.status = .terminated (.fault f) → t = s.raise f) ∧
    (t.status = .terminated .endOfProgram → ∃ i u, s.fetchDecode = .ok i ∧ exec i s = .next u ∧ u.status = .running ∧
      t = u.terminate .endOfProgram)

/-- R99, R165, R168 to R171: each fault is the result of an instruction exactly in the situations the spec names.
Overflow: LITERAL, its operand read, on a full data stack. Underflow: fewer elements than the instruction pops from that
stack. Zero divisor: DS_DIV with two elements and a zero top. Out of bounds: the operand address `P + 1` of a LITERAL,
`M` for an IF on zero with no THEN cell above it, the popped top for the four loads and stores with operands enough
(`pc` is in bounds wherever an opcode was fetched). The two results of the loop are never an instruction's. -/
def Obligations.FaultsComeFromTheirCauses : Prop :=
  ∀ (i : Instr) (s t : State), s.Inv → s.status = .running → exec i s = .next t →
    (∀ k, t.status = .terminated (.fault (.stackOverflow k)) ↔
      i = .literal ∧ k = .ds ∧ s.InBounds (s.pc + 1) ∧ s.ds.sp = (s.params.depth : Int) - 1) ∧
    (t.status = .terminated (.fault .divisionByZero) ↔ i = .dsDiv ∧ 1 ≤ s.ds.sp ∧ s.ds.top = 0) ∧
    (∀ k, t.status = .terminated (.fault (.stackUnderflow k)) ↔ (s.stack k).sp + 1 < i.popCount k) ∧
    (∀ a, t.status = .terminated (.fault (.addressOutOfBounds a)) → ¬ s.InBounds a) ∧
    (s.InBounds s.pc → ∀ a, t.status = .terminated (.fault (.addressOutOfBounds a)) ↔
      (i = .literal ∧ a = s.pc + 1 ∧ ¬ s.InBounds a) ∨
      (i = .if_ ∧ 0 ≤ s.ds.sp ∧ s.ds.top = 0 ∧ a = s.params.memSize ∧
        ∀ u, s.pc < u → u < s.params.memSize → s.mem.read u.toNat ≠ s.params.opc.then_) ∨
      (i = .dsFetch ∧ 0 ≤ s.ds.sp ∧ a = s.ds.top ∧ ¬ s.InBounds a) ∨
      (i = .dsStore ∧ 1 ≤ s.ds.sp ∧ a = s.ds.top ∧ ¬ s.InBounds a) ∨
      (i = .rsFetch ∧ 0 ≤ s.rs.sp ∧ a = s.rs.top ∧ ¬ s.InBounds a) ∨
      (i = .rsStore ∧ 1 ≤ s.rs.sp ∧ a = s.rs.top ∧ ¬ s.InBounds a)) ∧
    (∀ c a, t.status ≠ .terminated (.fault (.unknownOpcode c a))) ∧
    t.status ≠ .terminated .endOfProgram

/-! ### The step -/

/-- R100, R167: the step. A fetch outside memory and a cell that is no registered opcode are latched with nothing else
changed; when the cell at `pc` decodes to `i`, the step is `exec i` followed by the end test on the `pc` the instruction
wrote, and a fault of `i` leaves everything but `status` as at the start of the step. -/
def Obligations.StepRunsTheDecodedInstruction : Prop :=
  ∀ s : State, s.status = .running →
    (¬ s.InBounds s.pc → step s = .next { s with status := .terminated (.fault (.addressOutOfBounds s.pc)) }) ∧
    (s.InBounds s.pc → (∀ i, s.mem.read s.pc.toNat ≠ s.params.opc.code i) →
      step s = .next { s with status := .terminated (.fault (.unknownOpcode (s.mem.read s.pc.toNat) s.pc)) }) ∧
    ∀ (i : Instr) (u : State), s.InBounds s.pc → decode s.params.opc (s.mem.read s.pc.toNat) = some i →
      exec i s = .next u →
      step s = .next (if u.status = .running ∧ (s.params.memSize : Int) ≤ u.pc
        then { u with status := .terminated .endOfProgram } else u) ∧
      ∀ f, u.status = .terminated (.fault f) → step s = .next { s with status := .terminated (.fault f) }

/-- From every state the step answers a next state; nothing is refused and nothing is stuck. R183 (which the spec marks
as derived) says of Running states that each has a new state or a named fault; that the fault is a next state with
`status` latched is the model's reading (log entry 5), and so are the totality on states whose parameters break a
constraint (log entry 7) and the step of a terminated engine to itself (log entry 5; the spec's decision D22). -/
def Obligations.StepAlwaysAnswersANextState : Prop :=
  ∀ s : State, ∃ t, step s = .next t

/-- R102 (the spec's decision D22), R174: a terminated engine stays as it is under any number of steps, and HostRun
returns the latched result. -/
def Obligations.TerminatedEngineNeverChanges : Prop :=
  ∀ (s : State) (r : Result), s.status = .terminated r →
    step s = .next s ∧ hostStep s = (s, .terminated r) ∧ ∀ n, hostRun n s = (s, some r)

/-- R103 (the spec's decision D7): a JUMP below zero commits and leaves the engine Running; the next step ends the run
at its fetch. -/
def Obligations.JumpBelowZeroFaultsAtTheNextFetch : Prop :=
  ∀ s : State, s.Inv → s.status = .running → s.InBounds s.pc → s.mem.read s.pc.toNat = s.params.opc.jump →
    0 ≤ s.ds.sp → s.pc + s.ds.top < 0 →
    ∃ t, step s = .next t ∧ t.status = .running ∧ t.pc = s.pc + s.ds.top ∧ t.ds.sp = s.ds.sp - 1 ∧
      step t = .next (t.raise (.addressOutOfBounds (s.pc + s.ds.top)))

/-- R103 (the spec's decision D7): an instruction that leaves `pc` at or past `M` ends the run normally with its effects
committed: a JUMP there has popped its offset and keeps the out-of-range `pc`. -/
def Obligations.JumpPastTheEndTerminatesNormally : Prop :=
  ∀ s : State, s.Inv → s.status = .running → s.InBounds s.pc → s.mem.read s.pc.toNat = s.params.opc.jump →
    0 ≤ s.ds.sp → (s.params.memSize : Int) ≤ s.pc + s.ds.top →
    step s = .next { s with
      ds := ⟨s.ds.cells.set s.ds.sp.toNat 0, s.ds.sp - 1⟩
      pc := s.pc + s.ds.top
      status := .terminated .endOfProgram }

/-- R61 (which the spec marks as derived): a store into the next cell is what the next step decodes. -/
def Obligations.StoreIsSeenByTheNextFetch : Prop :=
  ∀ (s : State) (i : Instr), s.Inv → s.status = .running → s.InBounds s.pc →
    s.mem.read s.pc.toNat = s.params.opc.dsStore → 1 ≤ s.ds.sp → s.ds.top = s.pc + 1 →
    s.pc + 1 < s.params.memSize → s.ds.cell (s.ds.sp - 1) = s.params.opc.code i →
    ∃ t, step s = .next t ∧ t.pc = s.pc + 1 ∧ t.status = .running ∧ t.fetchDecode = .ok i

/-- R41: the three offsets have no effect on any step, and `PROGRAM_OFFSET` is read by reset alone. -/
def Obligations.OffsetsAreReadOnlyByReset : Prop :=
  ∀ (s t : State) (program tib dictionary : Int),
    (step s = .next t →
      step (s.withOffsets program tib dictionary) = .next (t.withOffsets program tib dictionary)) ∧
    hostReset (s.withOffsets program tib dictionary) =
      { (hostReset s).withOffsets program tib dictionary with pc := program }

/-! ### Reset, launch, invariant -/

/-- R38, R150, R191 (the zeros are the spec's decision D10): every piece of state after HostReset, whatever it was. -/
def Obligations.HostResetGivesEveryPieceItsResetValue : Prop :=
  ∀ s : State,
    (∀ a, s.InBounds a → (hostReset s).memRead a = .ok 0) ∧
    (∀ k i, 0 ≤ i → i < s.params.depth → ((hostReset s).stack k).cell i = 0) ∧
    (∀ k, ((hostReset s).stack k).cells.length = s.params.depth ∧ ((hostReset s).stack k).sp = -1) ∧
    (hostReset s).pc = s.params.programOffset ∧ (hostReset s).status = .running ∧
    (hostReset s).params = s.params ∧ hostReset s = State.resetWith s.params

/-- The invariant holds in the state after reset. -/
def Obligations.ResetStateMeetsTheInvariant : Prop := State.reset.Inv

/-- R22, R25, R26, R32, R165 together: every step from a state that meets the invariant gives one that meets it. -/
def Obligations.StepKeepsTheInvariant : Prop :=
  ∀ s t : State, s.Inv → step s = .next t → t.Inv

/-- R8 (the constraints are the spec's decision D19): the model builds an engine exactly from a configuration, and
refuses every other parameter set by name. -/
def Obligations.ConstructionRefusesNonConfigurations : Prop :=
  ∀ p : Params, (p.WellFormed → construct p = .next (State.resetWith p)) ∧
    (¬ p.WellFormed → construct p = .refused .notAConfiguration)

/-- R159 (which the spec marks as derived): every launch state has `pc` at `PROGRAM_OFFSET`, is Running, keeps its
parameters and meets the invariant. -/
def Obligations.LaunchStatesAreSound : Prop :=
  ∀ (s : State) (ts : List LaunchTransaction), s.params.WellFormed →
    (launch s ts).Inv ∧ (launch s ts).pc = s.params.programOffset ∧ (launch s ts).status = .running ∧
      (launch s ts).params = s.params

/-- Every state of every run from a launch state meets the invariant, with the parameters of the launch (R193). -/
def Obligations.EveryRunFromALaunchStateIsSound : Prop :=
  ∀ (s : State) (ts : List LaunchTransaction) (n : Nat), s.params.WellFormed →
    (hostRun n (launch s ts)).1.Inv ∧ (hostRun n (launch s ts)).1.params = s.params

/-! ### The host's transactions -/

/-- R151 (the spec's decision D21): HostLoad stores `wrap_W(v)` in the one cell, or changes nothing and reports the
address; `status` never changes. -/
def Obligations.HostLoadIsACheckedPointWrite : Prop :=
  ∀ (s : State) (a v : Int), s.Inv →
    (s.InBounds a → (hostLoad s a v).2 = none ∧ (hostLoad s a v).1.memRead a = .ok (wrap s.params.width v) ∧
      (∀ b, b ≠ a → (hostLoad s a v).1.memRead b = s.memRead b) ∧
      (hostLoad s a v).1 = { s with mem := (hostLoad s a v).1.mem }) ∧
    (¬ s.InBounds a → hostLoad s a v = (s, some (.addressOutOfBounds a)))

/-- R153 (the spec's decision D21): HostPreload is a push whose failure is told to the host and changes nothing. The
first equation gives the whole next state, the clauses after it what that means for the elements and for the rest. -/
def Obligations.HostPreloadIsAReportedPush : Prop :=
  ∀ (s : State) (k : StackId) (v : Int), s.Inv →
    ((s.stack k).elements.length < s.params.depth → (hostPreload s k v).2 = none ∧
      (hostPreload s k v).1 = s.setStack k
        ⟨(s.stack k).cells.set ((s.stack k).sp + 1).toNat (wrap s.params.width v), (s.stack k).sp + 1⟩ ∧
      (∀ i, i ≠ (s.stack k).sp + 1 → ((hostPreload s k v).1.stack k).cell i = (s.stack k).cell i) ∧
      (hostPreload s k v).1.params = s.params ∧
      ((hostPreload s k v).1.stack k).elements = (s.stack k).elements ++ [wrap s.params.width v] ∧
      (∀ j, j ≠ k → (hostPreload s k v).1.stack j = s.stack j) ∧ (hostPreload s k v).1.mem = s.mem ∧
      (hostPreload s k v).1.pc = s.pc ∧ (hostPreload s k v).1.status = s.status) ∧
    ((s.stack k).elements.length = s.params.depth → hostPreload s k v = (s, some (.stackOverflow k)))

/-- R152, R194, and the listing notation of R82 (the spec's decision D20): launching with the loads of a listing puts
item `k` at `PROGRAM_OFFSET + k`, and every other cell is 0. -/
def Obligations.LoadedListingLiesAtTheProgramOffset : Prop :=
  ∀ (s : State) (items : List ListingItem), s.params.WellFormed →
    s.params.programOffset + items.length ≤ s.params.memSize →
    (∀ (k : Nat) (h : k < items.length),
      (launch s (imageLoads s.params (assemble s.params items))).memRead (s.params.programOffset + k) =
        .ok (items[k].cell s.params)) ∧
    (∀ a, s.InBounds a → a < s.params.programOffset ∨ s.params.programOffset + items.length ≤ a →
      (launch s (imageLoads s.params (assemble s.params items))).memRead a = .ok 0)

/-- R154, R155 and R158 (the spec's decisions D15 and D16): HostStep is exactly one step and returns the new `status`;
HostRun is HostStep repeated, its answer is the result the reached `status` holds, and it can be stopped between steps
and resumed. The number of steps that bounds HostRun is the model's (log entry 8). -/
def Obligations.HostRunIsRepeatedHostStep : Prop :=
  ∀ (m n : Nat) (s : State),
    (∀ t, step s = .next t → hostStep s = (t, t.status)) ∧
    (hostRun n s).1 = (fun u => (hostStep u).1)^[n] s ∧
    (∀ r, (hostRun n s).2 = some r ↔ (hostRun n s).1.status = .terminated r) ∧
    hostRun (m + n) s = hostRun n (hostRun m s).1

/-- R156 (the spec's decision D15): what HostInspect returns inside the ranges of the rule. -/
def Obligations.HostInspectReturnsTheState : Prop :=
  ∀ (s : State) (k : StackId),
    (∀ a, s.InBounds a → hostInspect s (.mem a) = some (.integer (s.mem.read a.toNat))) ∧
    (∀ i, 0 ≤ i → i < s.params.depth → hostInspect s (.stackCell k i) = some (.integer ((s.stack k).cell i))) ∧
    hostInspect s (.stackPointer k) = some (.integer (s.stack k).sp) ∧
    hostInspect s .pc = some (.integer s.pc) ∧ hostInspect s .status = some (.status s.status)

/-- R157 (the spec's decision D17): a range inside memory is dumped in order; a range that leaves it returns no pairs and
the least address out of bounds. At count 0 the answer is the empty sequence for every start, one outside memory included:
R157 says so, D17 words its condition as a range inside memory, and the model's choice is log entry 6. -/
def Obligations.HostDumpReturnsTheRangeOrTheLeastBadAddress : Prop :=
  ∀ (s : State) (start : Int) (count : Nat),
    ((∀ a, start ≤ a → a < start + count → s.InBounds a) →
      hostDump s start count =
        .ok ((List.range count).map fun (j : Nat) => (start + (j : Int), s.mem.read (start + (j : Int)).toNat))) ∧
    (∀ a, start ≤ a → a < start + count → ¬ s.InBounds a → (∀ b, start ≤ b → b < a → s.InBounds b) →
      hostDump s start count = .error (.addressOutOfBounds a))

/-- R198 (which the spec marks as derived): under the default map a cell that nothing wrote executes as NOOP. -/
def Obligations.UnloadedCellExecutesAsNoop : Prop :=
  ∀ s : State, s.params.opc = OpcodeMap.standard → s.status = .running → s.InBounds s.pc →
    s.mem.read s.pc.toNat = 0 → s.pc + 1 < s.params.memSize → step s = .next { s with pc := s.pc + 1 }
end

