-- ==== Sys2Proof/Laws/Cell.lean ====
section
/-! SUPPORT. The cell's reduction `wrap_W` (spec R90, R91) and truncating division (R10): the facts later proofs cite. -/

namespace Sys2Proof

theorem cellModulus_pos (W : Nat) : 0 < cellModulus W := by
  unfold cellModulus; exact_mod_cast Nat.two_pow_pos W

/-- The modulus is twice the half range. -/
theorem cellModulus_eq {W : Nat} (h : 1 ≤ W) : cellModulus W = 2 * ((2 ^ (W - 1) : Nat) : Int) := by
  obtain ⟨n, rfl⟩ : ∃ n, W = n + 1 := ⟨W - 1, by omega⟩
  simp only [cellModulus, Nat.add_sub_cancel, pow_succ]
  push_cast; ring

theorem half_pos (W : Nat) : (0 : Int) < ((2 ^ (W - 1) : Nat) : Int) := by
  exact_mod_cast Nat.two_pow_pos (W - 1)

/-- The reduction lands in the cell range (at the degenerate width 0 too). -/
theorem wrap_inCellRange (W : Nat) (v : Int) : InCellRange W (wrap W v) := by
  rcases Nat.eq_zero_or_pos W with rfl | h
  · simp [InCellRange, wrap, minCell, maxCell, cellModulus]
  · have h1 := Int.emod_nonneg (v - minCell W) (cellModulus_pos W).ne'
    have h2 := Int.emod_lt_of_pos (v - minCell W) (cellModulus_pos W)
    have h3 := cellModulus_eq h
    unfold InCellRange wrap maxCell
    unfold minCell at *
    omega

theorem wrap_of_inCellRange {W : Nat} (h : 1 ≤ W) {v : Int} (hv : InCellRange W v) : wrap W v = v := by
  have h3 := cellModulus_eq h
  unfold InCellRange maxCell at hv
  unfold wrap
  rw [Int.emod_eq_of_lt] <;> unfold minCell at * <;> omega

/-- The reduction subtracts a multiple of the modulus. -/
theorem dvd_wrap_sub (W : Nat) (v : Int) : cellModulus W ∣ wrap W v - v := by
  have h := Int.emod_add_mul_ediv (v - minCell W) (cellModulus W)
  refine ⟨-((v - minCell W) / cellModulus W), ?_⟩
  unfold wrap
  linarith

/-- Congruent integers have one reduction. -/
theorem wrap_eq_of_dvd {W : Nat} {v w : Int} (h : cellModulus W ∣ v - w) : wrap W v = wrap W w := by
  have : (v - minCell W) % cellModulus W = (w - minCell W) % cellModulus W :=
    Int.emod_eq_emod_iff_emod_sub_eq_zero.mpr (Int.emod_eq_zero_of_dvd (by simpa using h))
  unfold wrap
  rw [this]

theorem zero_inCellRange (W : Nat) : InCellRange W 0 := by
  have := half_pos W
  unfold InCellRange minCell maxCell
  omega

theorem one_inCellRange {W : Nat} (h : 2 ≤ W) : InCellRange W 1 := by
  obtain ⟨n, rfl⟩ : ∃ n, W = n + 2 := ⟨W - 2, by omega⟩
  have : (0 : Int) < ((2 ^ n : Nat) : Int) := by exact_mod_cast Nat.two_pow_pos n
  simp only [InCellRange, minCell, maxCell, Nat.add_succ_sub_one, pow_succ]
  push_cast at *
  omega

/-- The quotient of R10 is the truncating quotient of Lean's library. -/
theorem Machine.tdiv_eq (b a : Int) : Machine.tdiv b a = Int.tdiv b a := by
  unfold Machine.tdiv
  rcases Int.eq_nat_or_neg b with ⟨m, rfl | rfl⟩ <;> rcases Int.eq_nat_or_neg a with ⟨n, rfl | rfl⟩ <;>
    rcases Nat.eq_zero_or_pos m with rfl | hm <;> rcases Nat.eq_zero_or_pos n with rfl | hn <;>
    simp_all [Int.sign_eq_one_of_pos, Int.neg_tdiv, Int.tdiv_neg, Int.sign_neg]

end Sys2Proof
end

