-- ==== Sys2Proof/Laws/Decode.lean ====
section
/-! SUPPORT. The decoder and the opcode map (spec R72, R74, R76). -/

namespace Sys2Proof

theorem Instr.mem_all (i : Instr) : i ∈ Instr.all := by cases i <;> decide

/-- The values of a map are the codes of the fourteen instructions in order. -/
theorem OpcodeMap.map_code_all (m : OpcodeMap) : Instr.all.map m.code = m.values := rfl

theorem OpcodeMap.code_mem_values (m : OpcodeMap) (i : Instr) : m.code i ∈ m.values := by
  rw [← m.map_code_all]
  exact List.mem_map_of_mem (Instr.mem_all i)

/-- In a map of distinct values the code determines the instruction (R75). -/
theorem OpcodeMap.code_injective {m : OpcodeMap} (h : m.values.Nodup) {i j : Instr} (hij : m.code i = m.code j) :
    i = j := by
  rw [← m.map_code_all] at h
  exact List.inj_on_of_nodup_map h (Instr.mem_all i) (Instr.mem_all j) hij

/-- What the decoder answers has the code it was given. -/
theorem decode_code {m : OpcodeMap} {c : Int} {i : Instr} (h : decode m c = some i) : m.code i = c := by
  simpa using List.find?_some h

/-- The decoder refuses exactly the values that are no code. -/
theorem decode_eq_none {m : OpcodeMap} {c : Int} (h : decode m c = none) (i : Instr) : m.code i ≠ c := by
  simpa using List.find?_eq_none.mp h i (Instr.mem_all i)

theorem Params.WellFormed.nodup {p : Params} (h : p.WellFormed) : p.opc.values.Nodup := h.2.2.2.2.1

theorem Params.WellFormed.code_range {p : Params} (h : p.WellFormed) (i : Instr) :
    0 ≤ p.opc.code i ∧ p.opc.code i ≤ maxCell p.width :=
  h.2.2.2.2.2 _ (p.opc.code_mem_values i)

theorem Params.WellFormed.two_le_width {p : Params} (h : p.WellFormed) : 2 ≤ p.width := h.1
theorem Params.WellFormed.one_le_depth {p : Params} (h : p.WellFormed) : 1 ≤ p.depth := h.2.1
theorem Params.WellFormed.programOffset {p : Params} (h : p.WellFormed) :
    0 ≤ p.programOffset ∧ p.programOffset < p.memSize := h.2.2.2.1

end Sys2Proof
end

