-- ==== Sys2Proof/Laws/Memory.lean ====
section
/-! SUPPORT. Read after write, and that every memory operation keeps the canonical form (spec R56, R60). -/

namespace Sys2Proof.Machine

@[simp] theorem Memory.read_nil (a : Nat) : Memory.read [] a = 0 := rfl

theorem Memory.wf_nil : Memory.wf [] := by decide

/-- Where every listed address exceeds `a`, the cell at `a` is unlisted. -/
theorem Memory.read_of_lt {m : Memory} {a : Nat} (h : ∀ e ∈ m, a < e.1) : m.read a = 0 := by
  induction m with
  | nil => rfl
  | cons e rest ih =>
    have he := h e (by simp)
    simp only [Memory.read, if_neg (Nat.ne_of_lt he)]
    exact ih fun x hx => h x (by simp [hx])

theorem Memory.wf_tail {e : Nat × Int} {m : Memory} (h : Memory.wf (e :: m)) : Memory.wf m :=
  ⟨(List.pairwise_cons.mp h.1).2, fun x hx => h.2 x (by simp [hx])⟩

/-- Every entry after a write is an old entry or the one written. -/
theorem Memory.mem_write {m : Memory} {a : Nat} {v : Int} {e : Nat × Int} (h : e ∈ m.write a v) :
    e ∈ m ∨ (e = (a, v) ∧ v ≠ 0) := by
  induction m with
  | nil =>
    simp only [Memory.write] at h
    split at h <;> simp_all [Memory.unlisted]
  | cons x rest ih =>
    obtain ⟨k, u⟩ := x
    simp only [Memory.write] at h
    split at h
    · split at h <;> simp_all [Memory.unlisted]
      tauto
    · split at h
      · split at h <;> simp_all [Memory.unlisted]
        tauto
      · rcases List.mem_cons.mp h with rfl | h
        · exact .inl (by simp)
        · rcases ih h with h | h
          · exact .inl (by simp [h])
          · exact .inr h

/-- A write keeps the canonical form. -/
theorem Memory.write_wf {m : Memory} (h : m.wf) (a : Nat) (v : Int) : (m.write a v).wf := by
  refine ⟨?_, fun e he => ?_⟩
  · induction m with
    | nil => simp only [Memory.write]; split <;> simp
    | cons x rest ih =>
      obtain ⟨k, u⟩ := x
      have hp := List.pairwise_cons.mp h.1
      have ih := ih (Memory.wf_tail h)
      simp only [Memory.write]
      split
      · rename_i hak
        split
        · exact h.1
        · refine List.pairwise_cons.mpr ⟨fun y hy => ?_, h.1⟩
          rcases List.mem_cons.mp hy with rfl | hy
          · exact hak
          · exact hak.trans (hp.1 y hy)
      · split
        · rename_i hak
          split
          · exact hp.2
          · exact List.pairwise_cons.mpr ⟨fun y hy => hak ▸ hp.1 y hy, hp.2⟩
        · rename_i h1 h2
          refine List.pairwise_cons.mpr ⟨fun y hy => ?_, ih⟩
          rcases Memory.mem_write hy with hy | ⟨rfl, _⟩
          · exact hp.1 y hy
          · simp only
            omega
  · rcases Memory.mem_write he with he | ⟨rfl, hv⟩
    · exact h.2 e he
    · exact hv

/-- A read after a write to the same cell gives the value written. -/
theorem Memory.read_write_same {m : Memory} (h : m.wf) (a : Nat) (v : Int) : (m.write a v).read a = v := by
  induction m with
  | nil =>
    simp only [Memory.write]
    split <;> simp_all [Memory.read, Memory.unlisted]
  | cons x rest ih =>
    obtain ⟨k, u⟩ := x
    have hp := List.pairwise_cons.mp h.1
    have ih := ih (Memory.wf_tail h)
    simp only [Memory.write]
    split
    · rename_i hak
      split
      · rename_i hv
        rw [hv, Memory.unlisted]
        refine Memory.read_of_lt fun e he => ?_
        rcases List.mem_cons.mp he with rfl | he
        · exact hak
        · exact hak.trans (hp.1 e he)
      · simp [Memory.read]
    · split
      · rename_i hak
        split
        · rename_i hv
          rw [hv, Memory.unlisted]
          exact Memory.read_of_lt fun e he => hak ▸ hp.1 e he
        · simp [Memory.read]
      · rename_i hne
        simpa [Memory.read, hne] using ih

/-- A write leaves every other cell alone. -/
theorem Memory.read_write_other (m : Memory) {a b : Nat} (hab : b ≠ a) (v : Int) : (m.write a v).read b = m.read b := by
  induction m with
  | nil =>
    simp only [Memory.write]
    split <;> simp [Memory.read, hab, Memory.unlisted]
  | cons x rest ih =>
    obtain ⟨k, u⟩ := x
    simp only [Memory.write]
    split
    · split
      · rfl
      · simp [Memory.read, hab]
    · split
      · rename_i hak
        subst hak
        split <;> simp [Memory.read, hab]
      · simp [Memory.read, ih]

/-- A cell reads 0 or holds a listed value. -/
theorem Memory.read_mem_or_zero (m : Memory) (a : Nat) : m.read a = 0 ∨ (a, m.read a) ∈ m := by
  induction m with
  | nil => exact .inl rfl
  | cons x rest ih =>
    obtain ⟨k, u⟩ := x
    by_cases h : a = k
    · right; simp [Memory.read, h]
    · rcases ih with ih | ih
      · left; simpa [Memory.read, h] using ih
      · right; simp [Memory.read, h, ih]

/-- Equal canonical memories are those that read alike: the canonical form is unique. -/
theorem Memory.ext_of_wf {m n : Memory} (hm : m.wf) (hn : n.wf) (h : ∀ a, m.read a = n.read a) : m = n := by
  induction m generalizing n with
  | nil =>
    cases n with
    | nil => rfl
    | cons y n =>
      have := h y.1
      simp [Memory.read] at this
      exact absurd this.symm (hn.2 y (by simp))
  | cons x m ih =>
    cases n with
    | nil =>
      have := h x.1
      simp [Memory.read] at this
      exact absurd this (hm.2 x (by simp))
    | cons y n =>
      have hx := List.pairwise_cons.mp hm.1
      have hy := List.pairwise_cons.mp hn.1
      have hxy : x.1 = y.1 := by
        rcases lt_trichotomy x.1 y.1 with hlt | heq | hlt
        · have := h x.1
          rw [Memory.read_of_lt (m := y :: n) (fun e he => by
            rcases List.mem_cons.mp he with rfl | he
            · exact hlt
            · exact hlt.trans (hy.1 e he))] at this
          simp [Memory.read] at this
          exact absurd this (hm.2 x (by simp))
        · exact heq
        · have := h y.1
          rw [Memory.read_of_lt (m := x :: m) (fun e he => by
            rcases List.mem_cons.mp he with rfl | he
            · exact hlt
            · exact hlt.trans (hx.1 e he))] at this
          simp [Memory.read] at this
          exact absurd this.symm (hn.2 y (by simp))
      obtain ⟨a, u⟩ := x
      obtain ⟨b, w⟩ := y
      simp only at hxy
      subst hxy
      have huw : u = w := by simpa [Memory.read] using h a
      subst huw
      congr 1
      refine ih (Memory.wf_tail hm) (Memory.wf_tail hn) fun c => ?_
      by_cases hc : c = a
      · subst hc
        rw [Memory.read_of_lt hx.1, Memory.read_of_lt hy.1]
      · simpa [Memory.read, hc] using h c

end Sys2Proof.Machine
end

