-- ==== Sys2Proof/Laws/State.lean ====
section
/-! SUPPORT. One lemma per field per update of the state: later proofs cite these and unfold no record update. -/

namespace Sys2Proof.Machine

variable (s : State) (k : StackId) (st : Stack) (x : Int) (r : Result) (f : Fault)

@[simp] theorem State.setPc_params : (s.setPc x).params = s.params := rfl
@[simp] theorem State.setPc_mem : (s.setPc x).mem = s.mem := rfl
@[simp] theorem State.setPc_ds : (s.setPc x).ds = s.ds := rfl
@[simp] theorem State.setPc_rs : (s.setPc x).rs = s.rs := rfl
@[simp] theorem State.setPc_pc : (s.setPc x).pc = x := rfl
@[simp] theorem State.setPc_status : (s.setPc x).status = s.status := rfl

@[simp] theorem State.advance_params : (s.advance x).params = s.params := rfl
@[simp] theorem State.advance_mem : (s.advance x).mem = s.mem := rfl
@[simp] theorem State.advance_ds : (s.advance x).ds = s.ds := rfl
@[simp] theorem State.advance_rs : (s.advance x).rs = s.rs := rfl
@[simp] theorem State.advance_pc : (s.advance x).pc = s.pc + x := rfl
@[simp] theorem State.advance_status : (s.advance x).status = s.status := rfl

@[simp] theorem State.stack_ds : s.stack .ds = s.ds := rfl
@[simp] theorem State.stack_rs : s.stack .rs = s.rs := rfl

@[simp] theorem State.setStack_params : (s.setStack k st).params = s.params := by cases k <;> rfl
@[simp] theorem State.setStack_mem : (s.setStack k st).mem = s.mem := by cases k <;> rfl
@[simp] theorem State.setStack_pc : (s.setStack k st).pc = s.pc := by cases k <;> rfl
@[simp] theorem State.setStack_status : (s.setStack k st).status = s.status := by cases k <;> rfl
@[simp] theorem State.setStack_ds_ds : (s.setStack .ds st).ds = st := rfl
@[simp] theorem State.setStack_ds_rs : (s.setStack .ds st).rs = s.rs := rfl
@[simp] theorem State.setStack_rs_rs : (s.setStack .rs st).rs = st := rfl
@[simp] theorem State.setStack_rs_ds : (s.setStack .rs st).ds = s.ds := rfl
@[simp] theorem State.setStack_stack : (s.setStack k st).stack k = st := by cases k <;> rfl

theorem State.setStack_stack_other {j : StackId} (h : j ≠ k) : (s.setStack k st).stack j = s.stack j := by
  cases k <;> cases j <;> first | rfl | exact absurd rfl h

@[simp] theorem State.setStack_setStack (st' : Stack) : (s.setStack k st).setStack k st' = s.setStack k st' := by
  cases k <;> rfl

@[simp] theorem State.setStack_self : s.setStack k (s.stack k) = s := by cases k <;> rfl

@[simp] theorem State.terminate_params : (s.terminate r).params = s.params := rfl
@[simp] theorem State.terminate_mem : (s.terminate r).mem = s.mem := rfl
@[simp] theorem State.terminate_ds : (s.terminate r).ds = s.ds := rfl
@[simp] theorem State.terminate_rs : (s.terminate r).rs = s.rs := rfl
@[simp] theorem State.terminate_pc : (s.terminate r).pc = s.pc := rfl
@[simp] theorem State.terminate_status : (s.terminate r).status = .terminated r := rfl

@[simp] theorem State.raise_params : (s.raise f).params = s.params := rfl
@[simp] theorem State.raise_mem : (s.raise f).mem = s.mem := rfl
@[simp] theorem State.raise_ds : (s.raise f).ds = s.ds := rfl
@[simp] theorem State.raise_rs : (s.raise f).rs = s.rs := rfl
@[simp] theorem State.raise_pc : (s.raise f).pc = s.pc := rfl
@[simp] theorem State.raise_status : (s.raise f).status = .terminated (.fault f) := rfl

@[simp] theorem Stack.pushed_sp (v : Int) : (st.pushed v).sp = st.sp + 1 := rfl
@[simp] theorem Stack.pushed_cells (v : Int) : (st.pushed v).cells = st.cells.set (st.sp + 1).toNat v := rfl
@[simp] theorem Stack.popped_sp : st.popped.sp = st.sp - 1 := rfl
@[simp] theorem Stack.popped_cells : st.popped.cells = st.cells.set st.sp.toNat 0 := rfl

variable (p : Params)

@[simp] theorem State.resetWith_params : (State.resetWith p).params = p := rfl
@[simp] theorem State.resetWith_mem : (State.resetWith p).mem = [] := rfl
@[simp] theorem State.resetWith_ds : (State.resetWith p).ds = Stack.empty p.depth := rfl
@[simp] theorem State.resetWith_rs : (State.resetWith p).rs = Stack.empty p.depth := rfl
@[simp] theorem State.resetWith_pc : (State.resetWith p).pc = p.programOffset := rfl
@[simp] theorem State.resetWith_status : (State.resetWith p).status = .running := rfl

end Sys2Proof.Machine
end

