-- ==== Sys2Proof/Laws/Ops.lean ====
section
/-! SUPPORT. One spec lemma per primitive (spec R92 to R97): what it answers and when. Later proofs cite these and do not
unfold the primitives. -/

namespace Sys2Proof.Machine

variable {s t : State} {k : StackId} {a v : Int}

/-! ### Stack cells -/

theorem Stack.cell_of_nonneg {st : Stack} {i : Int} (h : 0 ≤ i) : st.cell i = st.cells.getD i.toNat 0 := by
  simp [Stack.cell, not_lt.mpr h]

@[simp] theorem Stack.cell_of_neg {st : Stack} {i : Int} (h : i < 0) : st.cell i = 0 := by simp [Stack.cell, h]

/-- Popping leaves every cell but the top one. -/
theorem Stack.popped_cell {st : Stack} {i : Int} (h : i ≠ st.sp) (hsp : 0 ≤ st.sp) : st.popped.cell i = st.cell i := by
  by_cases hi : i < 0
  · simp [hi]
  · have : st.sp.toNat ≠ i.toNat := by omega
    simp [Stack.cell, hi, List.getD_eq_getElem?_getD, this]

/-- The top after a pop is the cell that was under the top. -/
theorem Stack.popped_top {st : Stack} (hsp : 0 ≤ st.sp) : st.popped.top = st.cell (st.sp - 1) :=
  Stack.popped_cell (by simp) hsp

/-- Pushing leaves every cell but the new top. -/
theorem Stack.pushed_cell_other {st : Stack} {i : Int} (h : i ≠ st.sp + 1) (hsp : -1 ≤ st.sp) :
    (st.pushed v).cell i = st.cell i := by
  by_cases hi : i < 0
  · simp [hi]
  · have : (st.sp + 1).toNat ≠ i.toNat := by omega
    simp [Stack.cell, hi, List.getD_eq_getElem?_getD, this]

/-- The new top is the value pushed. -/
theorem Stack.pushed_top {st : Stack} (hsp : -1 ≤ st.sp) (h : st.sp + 1 < st.cells.length) : (st.pushed v).top = v := by
  have h1 : ¬ st.sp + 1 < 0 := by omega
  have h2 : (st.sp + 1).toNat < st.cells.length := by omega
  simp [Stack.top, Stack.cell, h1, List.getD_eq_getElem?_getD, h2]

/-- A push in the place of the cell just popped: one cell is written. -/
theorem Stack.popped_pushed {st : Stack} : st.popped.pushed v = ⟨st.cells.set st.sp.toNat v, st.sp⟩ := by
  simp [Stack.popped, Stack.pushed]

/-- A push after two pops: the result stands in the cell that held `b`, and the cell that held `a` is zero (R135). -/
theorem Stack.popped_popped_pushed {st : Stack} :
    st.popped.popped.pushed v = ⟨(st.cells.set st.sp.toNat 0).set (st.sp - 1).toNat v, st.sp - 1⟩ := by
  simp [Stack.popped, Stack.pushed]

/-! ### Memory path -/

/-- The bounds depend on the parameters only. -/
theorem State.inBounds_setStack {st : Stack} : (s.setStack k st).InBounds a ↔ s.InBounds a := by cases k <;> exact Iff.rfl

theorem State.memRead_setStack {st : Stack} : (s.setStack k st).memRead a = s.memRead a := by cases k <;> rfl

theorem State.memRead_ok (h : s.InBounds a) : s.memRead a = .ok (s.mem.read a.toNat) := by simp [State.memRead, h]

theorem State.memRead_error (h : ¬ s.InBounds a) : s.memRead a = .error (.addressOutOfBounds a) := by
  simp [State.memRead, h]

/-- A read depends on the parameters and the memory only. -/
theorem State.memRead_eq : s.memRead a =
    if 0 ≤ a ∧ a < s.params.memSize then .ok (s.mem.read a.toNat) else .error (.addressOutOfBounds a) := rfl

theorem State.memWrite_ok (h : s.InBounds a) :
    s.memWrite a v = .ok { s with mem := s.mem.write a.toNat (wrap s.params.width v) } := by simp [State.memWrite, h]

theorem State.memWrite_error (h : ¬ s.InBounds a) : s.memWrite a v = .error (.addressOutOfBounds a) := by
  simp [State.memWrite, h]

/-! ### Stack controller -/

theorem State.push_ok (h : (s.stack k).sp < (s.params.depth : Int) - 1) :
    s.push k v = .ok (s.setStack k ((s.stack k).pushed (wrap s.params.width v))) := by
  simp [State.push, not_le.mpr h]

theorem State.push_error (h : (s.params.depth : Int) - 1 ≤ (s.stack k).sp) : s.push k v = .error (.stackOverflow k) := by
  simp [State.push, h]

theorem State.pop_ok (h : 0 ≤ (s.stack k).sp) :
    s.pop k = .ok ((s.stack k).top, s.setStack k (s.stack k).popped) := by
  simp [State.pop, not_lt.mpr h]

theorem State.pop_error (h : (s.stack k).sp < 0) : s.pop k = .error (.stackUnderflow k) := by simp [State.pop, h]

theorem State.popTwo_ok (h : 1 ≤ (s.stack k).sp) :
    s.popTwo k = .ok ((s.stack k).top, (s.stack k).cell ((s.stack k).sp - 1),
      s.setStack k (s.stack k).popped.popped) := by
  have h0 : 0 ≤ (s.stack k).sp := by omega
  have h1 : 0 ≤ ((s.setStack k (s.stack k).popped).stack k).sp := by simp; omega
  simp [State.popTwo, State.pop_ok h0, State.pop_ok h1, Stack.popped_top h0, bind, Except.bind, pure, Except.pure]

theorem State.popTwo_error (h : (s.stack k).sp < 1) : s.popTwo k = .error (.stackUnderflow k) := by
  by_cases h0 : (s.stack k).sp < 0
  · simp [State.popTwo, State.pop_error h0, bind, Except.bind]
  · have h1 : ((s.setStack k (s.stack k).popped).stack k).sp < 0 := by simp; omega
    simp [State.popTwo, State.pop_ok (not_lt.mp h0), State.pop_error h1, bind, Except.bind]

/-! ### The IF scan -/

/-- What the scan loop answers: a target is the first THEN cell at or above `t`; a failure is the bounds check at
the end of the range, and then no cell of the range is a THEN. -/
theorem State.scanFrom_cases (s : State) (fuel : Nat) : ∀ t : Int, 0 ≤ t → t + fuel ≤ s.params.memSize →
    (∃ T, s.scanFrom t fuel = .ok T ∧ t ≤ T ∧ T < t + fuel ∧ s.mem.read T.toNat = s.params.opc.then_ ∧
        ∀ u, t ≤ u → u < T → s.mem.read u.toNat ≠ s.params.opc.then_) ∨
      (s.scanFrom t fuel = .error (.addressOutOfBounds (t + fuel)) ∧
        ∀ u, t ≤ u → u < t + fuel → s.mem.read u.toNat ≠ s.params.opc.then_) := by
  induction fuel with
  | zero => intro t _ _; exact .inr ⟨by simp [State.scanFrom], by intro u h1 h2; simp at h2; omega⟩
  | succ n ih =>
    intro t h0 hM
    push_cast at hM
    have hb : s.InBounds t := ⟨h0, by omega⟩
    by_cases hc : s.mem.read t.toNat = s.params.opc.then_
    · left
      refine ⟨t, ?_, le_refl t, by push_cast; omega, hc, fun u h1 h2 => by omega⟩
      simp [State.scanFrom, State.memRead_ok hb, hc, bind, Except.bind, pure, Except.pure]
    · have hs : s.scanFrom t (n + 1) = s.scanFrom (t + 1) n := by
        simp [State.scanFrom, State.memRead_ok hb, hc, bind, Except.bind]
      have below : ∀ u, t ≤ u → u < t + 1 → s.mem.read u.toNat ≠ s.params.opc.then_ := by
        intro u h1 h2
        obtain rfl : u = t := by omega
        exact hc
      rcases ih (t + 1) (by omega) (by omega) with ⟨T, h, h1, h2, h3, h4⟩ | ⟨h, h1⟩
      · left
        refine ⟨T, hs.trans h, by omega, by push_cast; omega, h3, fun u hu hu' => ?_⟩
        by_cases hlt : u < t + 1
        · exact below u hu hlt
        · exact h4 u (by omega) hu'
      · right
        refine ⟨by rw [hs, h]; push_cast; congr 2; ring, fun u hu hu' => ?_⟩
        push_cast at hu'
        by_cases hlt : u < t + 1
        · exact below u hu hlt
        · exact h1 u (by omega) (by omega)

/-! ### Committing and the end test -/

@[simp] theorem State.commit_ok : s.commit (.ok t) = .next t := rfl
@[simp] theorem State.commit_error {f : Fault} : s.commit (.error f) = .next (s.raise f) := rfl

/-- A committed instruction or a latched fault: nothing else comes out of `commit` (R97). -/
theorem State.commit_cases {r : Except Fault State} (h : s.commit r = .next t) :
    r = .ok t ∨ ∃ f, r = .error f ∧ t = s.raise f := by
  cases r with
  | ok u => exact .inl (by cases h; rfl)
  | error f => exact .inr ⟨f, rfl, by cases h; rfl⟩

theorem State.endTest_of_terminated {r : Result} (h : s.status = .terminated r) : s.endTest = s := by
  simp [State.endTest, h]

theorem State.endTest_of_lt (h : s.pc < s.params.memSize) : s.endTest = s := by
  unfold State.endTest
  split
  · rfl
  · simp [not_le.mpr h]

theorem State.endTest_of_le (h : s.status = .running) (hpc : (s.params.memSize : Int) ≤ s.pc) :
    s.endTest = s.terminate .endOfProgram := by simp [State.endTest, h, hpc]

@[simp] theorem State.endTest_params : s.endTest.params = s.params := by unfold State.endTest; split <;> [rfl; (split <;> rfl)]
@[simp] theorem State.endTest_mem : s.endTest.mem = s.mem := by unfold State.endTest; split <;> [rfl; (split <;> rfl)]
@[simp] theorem State.endTest_ds : s.endTest.ds = s.ds := by unfold State.endTest; split <;> [rfl; (split <;> rfl)]
@[simp] theorem State.endTest_rs : s.endTest.rs = s.rs := by unfold State.endTest; split <;> [rfl; (split <;> rfl)]
@[simp] theorem State.endTest_pc : s.endTest.pc = s.pc := by unfold State.endTest; split <;> [rfl; (split <;> rfl)]

end Sys2Proof.Machine
end

