-- ==== Sys2Proof/Laws/Exec.lean ====
section
/-! SUPPORT. What each shared operation of the instructions can do, said once (the fault checks in the order of spec
R171, then the writes), and that `exec` commits one such operation (R97). -/

namespace Sys2Proof.Machine

variable (s : State) (k : StackId)

/-- A load (R110, R112). The overflow case is met only in a state whose stack pointer exceeds `D - 1`. -/
theorem State.load_cases :
    ((s.stack k).sp < 0 ∧ s.load k = .error (.stackUnderflow k)) ∨
    (0 ≤ (s.stack k).sp ∧ ¬ s.InBounds (s.stack k).top ∧
      s.load k = .error (.addressOutOfBounds (s.stack k).top)) ∨
    (0 ≤ (s.stack k).sp ∧ s.InBounds (s.stack k).top ∧ (s.params.depth : Int) ≤ (s.stack k).sp ∧
      s.load k = .error (.stackOverflow k)) ∨
    (0 ≤ (s.stack k).sp ∧ s.InBounds (s.stack k).top ∧ (s.stack k).sp < s.params.depth ∧
      s.load k = .ok ((s.setStack k ⟨(s.stack k).cells.set (s.stack k).sp.toNat
        (wrap s.params.width (s.mem.read (s.stack k).top.toNat)), (s.stack k).sp⟩).advance 1)) := by
  by_cases h0 : (s.stack k).sp < 0
  · exact .inl ⟨h0, by simp [State.load, State.pop_error h0, bind, Except.bind]⟩
  have hpop := State.pop_ok (not_lt.mp h0)
  right
  by_cases hb : s.InBounds (s.stack k).top
  · have hb' : (s.setStack k (s.stack k).popped).InBounds (s.stack k).top := by rwa [State.inBounds_setStack]
    have hread := State.memRead_ok hb'
    right
    by_cases hD : (s.params.depth : Int) ≤ (s.stack k).sp
    · refine .inl ⟨not_lt.mp h0, hb, hD, ?_⟩
      have := State.push_error (s := s.setStack k (s.stack k).popped) (k := k)
        (v := s.mem.read (s.stack k).top.toNat) (by simp; omega)
      simp [State.load, hpop, hread, this, bind, Except.bind]
    · refine .inr ⟨not_lt.mp h0, hb, not_le.mp hD, ?_⟩
      have := State.push_ok (s := s.setStack k (s.stack k).popped) (k := k)
        (v := s.mem.read (s.stack k).top.toNat) (by simp; omega)
      simp [State.load, hpop, hread, this, Stack.popped_pushed, bind, Except.bind, pure, Except.pure]
  · have hb' : ¬ (s.setStack k (s.stack k).popped).InBounds (s.stack k).top := by rwa [State.inBounds_setStack]
    exact .inl ⟨not_lt.mp h0, hb, by simp [State.load, hpop, State.memRead_error hb', bind, Except.bind]⟩

/-- A store (R111, R113). -/
theorem State.store_cases :
    ((s.stack k).sp < 1 ∧ s.store k = .error (.stackUnderflow k)) ∨
    (1 ≤ (s.stack k).sp ∧ ¬ s.InBounds (s.stack k).top ∧
      s.store k = .error (.addressOutOfBounds (s.stack k).top)) ∨
    (1 ≤ (s.stack k).sp ∧ s.InBounds (s.stack k).top ∧
      s.store k = .ok ({ s.setStack k (s.stack k).popped.popped with
        mem := s.mem.write (s.stack k).top.toNat
          (wrap s.params.width ((s.stack k).cell ((s.stack k).sp - 1))) }.advance 1)) := by
  by_cases h1 : (s.stack k).sp < 1
  · exact .inl ⟨h1, by simp [State.store, State.popTwo_error h1, bind, Except.bind]⟩
  have hpop := State.popTwo_ok (not_lt.mp h1)
  right
  by_cases hb : s.InBounds (s.stack k).top
  · have hb' : (s.setStack k (s.stack k).popped.popped).InBounds (s.stack k).top := by rwa [State.inBounds_setStack]
    refine .inr ⟨not_lt.mp h1, hb, ?_⟩
    simp [State.store, hpop, State.memWrite_ok hb', bind, Except.bind, pure, Except.pure]
  · have hb' : ¬ (s.setStack k (s.stack k).popped.popped).InBounds (s.stack k).top := by rwa [State.inBounds_setStack]
    exact .inl ⟨not_lt.mp h1, hb, by simp [State.store, hpop, State.memWrite_error hb', bind, Except.bind]⟩

/-- LITERAL (R120). -/
theorem State.pushLiteral_cases :
    (¬ s.InBounds (s.pc + 1) ∧ s.pushLiteral = .error (.addressOutOfBounds (s.pc + 1))) ∨
    (s.InBounds (s.pc + 1) ∧ (s.params.depth : Int) - 1 ≤ s.ds.sp ∧
      s.pushLiteral = .error (.stackOverflow .ds)) ∨
    (s.InBounds (s.pc + 1) ∧ s.ds.sp < (s.params.depth : Int) - 1 ∧
      s.pushLiteral = .ok ((s.setStack .ds (s.ds.pushed
        (wrap s.params.width (s.mem.read (s.pc + 1).toNat)))).advance 2)) := by
  by_cases hb : s.InBounds (s.pc + 1)
  · right
    have hread := State.memRead_ok hb
    by_cases hD : (s.params.depth : Int) - 1 ≤ s.ds.sp
    · exact .inl ⟨hb, hD, by
        simp [State.pushLiteral, State.literalOperand, hread, State.push_error (k := .ds) hD, bind, Except.bind]⟩
    · exact .inr ⟨hb, not_le.mp hD, by
        simp [State.pushLiteral, State.literalOperand, hread, State.push_ok (k := .ds) (not_le.mp hD), bind,
          Except.bind, pure, Except.pure]⟩
  · exact .inl ⟨hb, by simp [State.pushLiteral, State.literalOperand, State.memRead_error hb, bind, Except.bind]⟩

/-- A two-operand instruction (R125 to R129), `a` the top of DS and `b` the cell under it. The overflow case is met only
in a state whose stack pointer exceeds `D - 1`. -/
theorem State.binary_cases (op : Int → Int → Except Fault Int) :
    (s.ds.sp < 1 ∧ s.binary op = .error (.stackUnderflow .ds)) ∨
    (1 ≤ s.ds.sp ∧ ∃ f, op (s.ds.cell (s.ds.sp - 1)) s.ds.top = .error f ∧ s.binary op = .error f) ∨
    (1 ≤ s.ds.sp ∧ (s.params.depth : Int) + 1 ≤ s.ds.sp ∧ s.binary op = .error (.stackOverflow .ds)) ∨
    (1 ≤ s.ds.sp ∧ s.ds.sp < (s.params.depth : Int) + 1 ∧ ∃ r, op (s.ds.cell (s.ds.sp - 1)) s.ds.top = .ok r ∧
      s.binary op = .ok ((s.setStack .ds ⟨(s.ds.cells.set s.ds.sp.toNat 0).set (s.ds.sp - 1).toNat
        (wrap s.params.width r), s.ds.sp - 1⟩).advance 1)) := by
  by_cases h1 : s.ds.sp < 1
  · exact .inl ⟨h1, by simp [State.binary, State.popTwo_error (k := .ds) h1, bind, Except.bind]⟩
  have hpop := State.popTwo_ok (s := s) (k := .ds) (not_lt.mp h1)
  simp only [State.stack_ds] at hpop
  right
  cases hr : op (s.ds.cell (s.ds.sp - 1)) s.ds.top with
  | error f => exact .inl ⟨not_lt.mp h1, f, rfl, by simp [State.binary, hpop, hr, bind, Except.bind]⟩
  | ok r =>
    right
    by_cases hD : (s.params.depth : Int) + 1 ≤ s.ds.sp
    · have := State.push_error (s := s.setStack .ds s.ds.popped.popped) (k := .ds) (v := r) (by simp; omega)
      exact .inl ⟨not_lt.mp h1, hD, by simp [State.binary, hpop, hr, this, bind, Except.bind]⟩
    · have := State.push_ok (s := s.setStack .ds s.ds.popped.popped) (k := .ds) (v := r) (by simp; omega)
      exact .inr ⟨not_lt.mp h1, not_le.mp hD, r, rfl, by
        simp [State.binary, hpop, hr, this, Stack.popped_popped_pushed, bind, Except.bind, pure, Except.pure]⟩

/-- IF (R140). -/
theorem State.branchIf_cases :
    (s.ds.sp < 0 ∧ s.branchIf = .error (.stackUnderflow .ds)) ∨
    (0 ≤ s.ds.sp ∧ s.ds.top ≠ 0 ∧ s.branchIf = .ok ((s.setStack .ds s.ds.popped).advance 1)) ∨
    (0 ≤ s.ds.sp ∧ s.ds.top = 0 ∧ ∃ f, s.scanThen s.pc = .error f ∧ s.branchIf = .error f) ∨
    (0 ≤ s.ds.sp ∧ s.ds.top = 0 ∧ ∃ T, s.scanThen s.pc = .ok T ∧
      s.branchIf = .ok ((s.setStack .ds s.ds.popped).setPc T)) := by
  by_cases h0 : s.ds.sp < 0
  · exact .inl ⟨h0, by simp [State.branchIf, State.pop_error (k := .ds) h0, bind, Except.bind]⟩
  have hpop := State.pop_ok (s := s) (k := .ds) (not_lt.mp h0)
  simp only [State.stack_ds] at hpop
  right
  by_cases hc : s.ds.top = 0
  · right
    have hloop : ∀ n t, (s.setStack .ds s.ds.popped).scanFrom t n = s.scanFrom t n := by
      intro n
      induction n with
      | zero => intro t; rfl
      | succ n ih => intro t; simp only [State.scanFrom, ih, State.memRead_setStack, State.setStack_params]
    have hscan : (s.setStack .ds s.ds.popped).scanThen s.pc = s.scanThen s.pc := hloop _ _
    cases hr : s.scanThen s.pc with
    | error f =>
      exact .inl ⟨not_lt.mp h0, hc, f, rfl, by
        simp [State.branchIf, hpop, conditionHolds, hc, hscan, hr, bind, Except.bind]⟩
    | ok T =>
      exact .inr ⟨not_lt.mp h0, hc, T, rfl, by
        simp [State.branchIf, hpop, conditionHolds, hc, hscan, hr, bind, Except.bind, pure, Except.pure]⟩
  · exact .inl ⟨not_lt.mp h0, hc, by
      simp [State.branchIf, hpop, conditionHolds, hc, bind, Except.bind, pure, Except.pure]⟩

/-- JUMP (R143). -/
theorem State.jumpRelative_cases :
    (s.ds.sp < 0 ∧ s.jumpRelative = .error (.stackUnderflow .ds)) ∨
    (0 ≤ s.ds.sp ∧ s.jumpRelative = .ok ((s.setStack .ds s.ds.popped).setPc (s.pc + s.ds.top))) := by
  by_cases h0 : s.ds.sp < 0
  · exact .inl ⟨h0, by simp [State.jumpRelative, State.pop_error (k := .ds) h0, bind, Except.bind]⟩
  · exact .inr ⟨not_lt.mp h0, by
      simp [State.jumpRelative, State.pop_ok (k := .ds) (not_lt.mp h0), bind, Except.bind, pure, Except.pure]⟩

/-- The operation of each instruction, before it is committed. -/
def State.operation (s : State) : Instr → Except Fault State
  | .noop => .ok (s.advance 1)
  | .dsFetch => s.load .ds
  | .dsStore => s.store .ds
  | .rsFetch => s.load .rs
  | .rsStore => s.store .rs
  | .literal => s.pushLiteral
  | .dsAdd => s.binary fun b a => .ok (b + a)
  | .dsSub => s.binary fun b a => .ok (b - a)
  | .dsMul => s.binary fun b a => .ok (b * a)
  | .dsDiv => s.binary quotient
  | .dsEq => s.binary fun b a => .ok (equalityFlag b a)
  | .if_ => s.branchIf
  | .then_ => .ok (s.advance 1)
  | .jump => s.jumpRelative

/-- `exec` is the commit of the instruction's operation. -/
theorem exec_eq_commit (i : Instr) : exec i s = s.commit (s.operation i) := by cases i <;> rfl

end Sys2Proof.Machine
end

