-- ==== Sys2Proof/Laws/Step.lean ====
section
/-! SUPPORT. What a step can do, said once (spec R100, R102), and what the host transactions do to a state. -/

namespace Sys2Proof.Machine

variable {s t : State}

/-- The five outcomes of a step: nothing on a terminated engine; a fetch fault; a decode fault; an instruction's fault;
a committed instruction followed by the end test. -/
theorem step_cases (h : step s = .next t) :
    ((∃ r, s.status = .terminated r) ∧ t = s) ∨
    (s.status = .running ∧ ¬ s.InBounds s.pc ∧ t = s.raise (.addressOutOfBounds s.pc)) ∨
    (s.status = .running ∧ s.InBounds s.pc ∧ decode s.params.opc (s.mem.read s.pc.toNat) = none ∧
      t = s.raise (.unknownOpcode (s.mem.read s.pc.toNat) s.pc)) ∨
    (s.status = .running ∧ s.InBounds s.pc ∧ ∃ i f, decode s.params.opc (s.mem.read s.pc.toNat) = some i ∧
      s.operation i = .error f ∧ t = s.raise f) ∨
    (s.status = .running ∧ s.InBounds s.pc ∧ ∃ i u, decode s.params.opc (s.mem.read s.pc.toNat) = some i ∧
      s.operation i = .ok u ∧ t = u.endTest) := by
  unfold step at h
  cases hst : s.status with
  | terminated r =>
    rw [hst] at h
    exact .inl ⟨⟨r, rfl⟩, by cases h; rfl⟩
  | running =>
    right
    rw [hst] at h
    by_cases hb : s.InBounds s.pc
    · right
      cases hd : decode s.params.opc (s.mem.read s.pc.toNat) with
      | none =>
        simp only [State.fetchDecode, State.memRead_ok hb, hd] at h
        exact .inl ⟨rfl, hb, rfl, by cases h; rfl⟩
      | some i =>
        simp only [State.fetchDecode, State.memRead_ok hb, hd, exec_eq_commit] at h
        right
        cases ho : s.operation i with
        | error f =>
          rw [ho, State.commit_error] at h
          refine .inl ⟨rfl, hb, i, f, rfl, ho, ?_⟩
          cases h
          exact State.endTest_of_terminated rfl
        | ok u =>
          rw [ho, State.commit_ok] at h
          exact .inr ⟨rfl, hb, i, u, rfl, ho, by cases h; rfl⟩
    · simp only [State.fetchDecode, State.memRead_error hb] at h
      exact .inl ⟨rfl, hb, by cases h; rfl⟩

/-- `hostStep` is the step: its two other branches are never taken. -/
theorem hostStep_of_step (h : step s = .next t) : hostStep s = (t, t.status) := by simp [hostStep, h]

/-! ### Host transactions -/

theorem hostLoad_ok {a v : Int} (h : s.InBounds a) :
    hostLoad s a v = ({ s with mem := s.mem.write a.toNat (wrap s.params.width v) }, none) := by
  simp [hostLoad, State.memWrite_ok h, State.answer]

theorem hostLoad_error {a v : Int} (h : ¬ s.InBounds a) : hostLoad s a v = (s, some (.addressOutOfBounds a)) := by
  simp [hostLoad, State.memWrite_error h, State.answer]

theorem hostPreload_ok {k : StackId} {v : Int} (h : (s.stack k).sp < (s.params.depth : Int) - 1) :
    hostPreload s k v = (s.setStack k ((s.stack k).pushed (wrap s.params.width v)), none) := by
  simp [hostPreload, State.push_ok h, State.answer]

theorem hostPreload_error {k : StackId} {v : Int} (h : (s.params.depth : Int) - 1 ≤ (s.stack k).sp) :
    hostPreload s k v = (s, some (.stackOverflow k)) := by
  simp [hostPreload, State.push_error h, State.answer]

/-- HostReset loses everything but the parameters. -/
theorem hostReset_eq (s : State) : hostReset s = State.resetWith s.params := rfl

end Sys2Proof.Machine
end

