-- ==== Sys2Proof/Laws/Invariant.lean ====
section
/-! SUPPORT. That each primitive write keeps its part of the invariant (spec R22, R25, R26, R50). -/

namespace Sys2Proof.Machine

variable {W D M : Nat} {st : Stack} {m : Memory} {v : Int}

/-- A push that does not overflow keeps the stack invariant. -/
theorem Stack.Inv.pushed (h : st.Inv W D) (hv : InCellRange W v) (hs : st.sp < (D : Int) - 1) :
    (st.pushed v).Inv W D := by
  obtain ⟨h1, ⟨h2, h3⟩, h4, h5⟩ := h
  refine ⟨by simpa using h1, ⟨by simp; omega, by simp; omega⟩, fun x hx => ?_, fun i hi hlt => ?_⟩
  · rcases List.mem_or_eq_of_mem_set hx with hx | rfl
    · exact h4 x hx
    · exact hv
  · simp only [Stack.pushed_sp] at hlt
    have hne : (st.sp + 1).toNat ≠ i := by omega
    have := h5 i hi (by omega)
    simpa [List.getD_eq_getElem?_getD, List.getElem?_set, hne] using this

/-- A pop that does not underflow keeps the stack invariant. -/
theorem Stack.Inv.popped (h : st.Inv W D) (hs : 0 ≤ st.sp) : st.popped.Inv W D := by
  obtain ⟨h1, ⟨h2, h3⟩, h4, h5⟩ := h
  refine ⟨by simpa using h1, ⟨by simp; omega, by simp; omega⟩, fun x hx => ?_, fun i hi hlt => ?_⟩
  · rcases List.mem_or_eq_of_mem_set hx with hx | rfl
    · exact h4 x hx
    · exact zero_inCellRange W
  · simp only [Stack.popped_sp] at hlt
    by_cases he : i = st.sp.toNat
    · subst he
      simp [List.getD_eq_getElem?_getD, h1, hi]
    · have := h5 i hi (by omega)
      rw [List.getD_eq_getElem?_getD] at this ⊢
      rwa [Stack.popped_cells, List.getElem?_set_ne (by omega)]

/-- Every cell of a stack that meets the invariant is a cell value. -/
theorem Stack.Inv.cell_inCellRange (h : st.Inv W D) (i : Int) : InCellRange W (st.cell i) := by
  unfold Stack.cell
  split
  · exact zero_inCellRange W
  · rw [List.getD_eq_getElem?_getD]
    cases hg : st.cells[i.toNat]? with
    | none => exact zero_inCellRange W
    | some x => exact h.2.2.1 x (List.mem_of_getElem? hg)

/-- The stack that reset leaves. -/
theorem Stack.Inv.empty (hD : 1 ≤ D) : (Stack.empty D).Inv W D := by
  refine ⟨by simp [Stack.empty], ⟨by simp [Stack.empty], by simp [Stack.empty]; omega⟩, fun x hx => ?_, fun i hi _ => ?_⟩
  · rw [(List.mem_replicate.mp hx).2]
    exact zero_inCellRange W
  · simp [Stack.empty, List.getD_eq_getElem?_getD, hi]

/-- A write of a cell value inside memory keeps the memory invariant. -/
theorem Memory.Inv.write (h : m.Inv W M) {a : Nat} (ha : a < M) (hv : InCellRange W v) : (m.write a v).Inv W M := by
  refine ⟨Memory.write_wf h.1 a v, fun e he => ?_⟩
  rcases Memory.mem_write he with he | ⟨rfl, _⟩
  · exact h.2 e he
  · exact ⟨ha, hv⟩

/-- Every cell of memory is a cell value. -/
theorem Memory.Inv.read_inCellRange (h : m.Inv W M) (a : Nat) : InCellRange W (m.read a) := by
  rcases Memory.read_mem_or_zero m a with h0 | hmem
  · rw [h0]
    exact zero_inCellRange W
  · exact (h.2 _ hmem).2

/-- The memory that reset leaves. -/
theorem Memory.Inv.nil : Memory.Inv W M [] := ⟨Memory.wf_nil, by simp⟩

/-- Reset's memory has the canonical form. -/
theorem State.reset_mem_wf : State.reset.mem.wf := Memory.wf_nil

/-- The memory operations of the engine and of the host keep the canonical form. -/
theorem State.memWrite_wf {s t : State} {a : Int} (hs : s.mem.wf) (h : s.memWrite a v = .ok t) : t.mem.wf := by
  unfold State.memWrite at h
  split at h
  · cases h
    exact Memory.write_wf hs _ _
  · cases h

theorem hostLoad_wf {s : State} {a : Int} (hs : s.mem.wf) : (hostLoad s a v).1.mem.wf := by
  by_cases hb : s.InBounds a
  · rw [hostLoad_ok hb]
    exact Memory.write_wf hs _ _
  · rwa [hostLoad_error hb]

theorem State.placeCell_wf {s : State} {a : Int} (hs : s.mem.wf) : (s.placeCell a v).mem.wf := by
  unfold State.placeCell
  split
  · exact Memory.write_wf hs _ _
  · exact hs

theorem State.withFetchWord_wf {s : State} {nbits w : Nat} (hs : s.mem.wf) : (s.withFetchWord nbits w).mem.wf :=
  State.placeCell_wf (State.placeCell_wf hs)

end Sys2Proof.Machine
end

