-- ==== Sys2Proof/Laws/PerInstr.lean ====
section
/-! SUPPORT. The family `StandardOpcode`, one lemma per instruction: its row of the default opcode table (spec R74) and its
length (R70, R73). The numbers are written out from the table. -/

namespace Sys2Proof.Laws.StandardOpcode

/-- The value of the default map for a mnemonic, as the table of R74 prints it. -/
def printed : Instr → Int
  | .noop => 0
  | .dsFetch => 1
  | .dsStore => 2
  | .rsFetch => 3
  | .rsStore => 4
  | .literal => 5
  | .dsAdd => 6
  | .dsSub => 7
  | .dsMul => 8
  | .dsDiv => 9
  | .dsEq => 10
  | .if_ => 11
  | .then_ => 12
  | .jump => 13

/-- The default map gives the printed value, the printed value decodes to the instruction, and an operand cell is part
of the instruction exactly where its length is two. -/
def Statement (i : Instr) : Prop :=
  OpcodeMap.standard.code i = printed i ∧ decode OpcodeMap.standard (printed i) = some i ∧
    (∀ c : Code, c.instr = i → c.FormatOk → (encode OpcodeMap.standard c).length = i.length)

theorem length_of_format {i : Instr} (c : Code) (hc : c.instr = i) (hf : c.FormatOk) :
    (encode OpcodeMap.standard c).length = i.length := by
  obtain ⟨j, o⟩ := c
  obtain rfl : j = i := hc
  cases o <;> cases j <;> simp_all [Code.FormatOk, encode, Instr.length]

theorem noop : Statement .noop := ⟨rfl, by decide, length_of_format⟩
theorem dsFetch : Statement .dsFetch := ⟨rfl, by decide, length_of_format⟩
theorem dsStore : Statement .dsStore := ⟨rfl, by decide, length_of_format⟩
theorem rsFetch : Statement .rsFetch := ⟨rfl, by decide, length_of_format⟩
theorem rsStore : Statement .rsStore := ⟨rfl, by decide, length_of_format⟩
theorem literal : Statement .literal := ⟨rfl, by decide, length_of_format⟩
theorem dsAdd : Statement .dsAdd := ⟨rfl, by decide, length_of_format⟩
theorem dsSub : Statement .dsSub := ⟨rfl, by decide, length_of_format⟩
theorem dsMul : Statement .dsMul := ⟨rfl, by decide, length_of_format⟩
theorem dsDiv : Statement .dsDiv := ⟨rfl, by decide, length_of_format⟩
theorem dsEq : Statement .dsEq := ⟨rfl, by decide, length_of_format⟩
theorem if_ : Statement .if_ := ⟨rfl, by decide, length_of_format⟩
theorem then_ : Statement .then_ := ⟨rfl, by decide, length_of_format⟩
theorem jump : Statement .jump := ⟨rfl, by decide, length_of_format⟩

end Sys2Proof.Laws.StandardOpcode
end

