-- ==== Sys2Proof/Tests/Slice0.lean ====
section
/-! SUPPORT. The model's own tests. Expected results are those of spec/95_test_vectors.md (the vector is named at each)
or of the rule named; none is the model's own answer. After them, for every obligation with hypotheses, witnesses that
meet the hypotheses of each clause at a boundary value. -/

namespace Sys2Proof.Tests

open Sys2Proof Sys2Proof.Machine

/-! ### Small states -/

/-- A stack with the given elements, bottom first, in `D` cells. -/
def stackOf (D : Nat) (xs : List Int) : Stack := ⟨xs ++ List.replicate (D - xs.length) 0, (xs.length : Int) - 1⟩

/-- The test vectors' engine: the default parameters (spec/95_test_vectors.md, first paragraph). -/
def vec (mem : Memory) (ds rs : List Int) (pc : Int) : State :=
  ⟨Params.standard, mem, stackOf 20 ds, stackOf 20 rs, pc, .running⟩

/-- A small configuration: 8-bit cells, stacks of 3, 16 cells of memory, programs at 2. -/
def tinyParams : Params := { Params.standard with width := 8, depth := 3, memSize := 16, programOffset := 2 }

def tiny (mem : Memory) (ds rs : List Int) (pc : Int) : State :=
  ⟨tinyParams, mem, stackOf 3 ds, stackOf 3 rs, pc, .running⟩

/-- One observation of the state after one step. -/
def after {α : Type} (s : State) (f : State → α) : Option α :=
  match step s with
  | .next t => some (f t)
  | .fault _ => none
  | .refused _ => none

/-- What the vectors show of a state: `pc`, the elements of both stacks, `status`. -/
def view (t : State) : Int × List Int × List Int × Status := (t.pc, t.ds.elements, t.rs.elements, t.status)

abbrev faulted (f : Fault) : Status := .terminated (.fault f)

/-! ### Well-formedness: an ill-formed term for each check -/

theorem test_standard_params_wellFormed : Params.standard.WellFormed := by decide
theorem test_tiny_params_wellFormed : tinyParams.WellFormed := by decide
theorem test_width_1_refused : ¬ { Params.standard with width := 1 }.WidthOk := by decide
theorem test_depth_0_refused : ¬ { Params.standard with depth := 0 }.DepthOk := by decide
theorem test_memSize_0_refused : ¬ { Params.standard with memSize := 0 }.MemSizeOk := by decide
theorem test_programOffset_at_M_refused : ¬ { Params.standard with programOffset := 350 }.ProgramOffsetOk := by decide
theorem test_programOffset_negative_refused : ¬ { Params.standard with programOffset := -1 }.ProgramOffsetOk := by decide
theorem test_equal_opcodes_refused :
    ¬ { Params.standard with opc := { OpcodeMap.standard with jump := 12 } }.OpcodesDistinct := by decide
theorem test_negative_opcode_refused :
    ¬ { Params.standard with opc := { OpcodeMap.standard with noop := -1 } }.OpcodesInRange := by decide
theorem test_width_4_cannot_hold_13 : ¬ { Params.standard with width := 4 }.OpcodesInRange := by decide
theorem test_width_5_holds_13 : { Params.standard with width := 5 }.WellFormed := by decide
theorem test_literal_without_operand_refused : ¬ (Code.mk .literal none).FormatOk := by decide
theorem test_noop_with_operand_refused : ¬ (Code.mk .noop (some 0)).FormatOk := by decide
theorem test_operand_above_max_refused : ¬ (Code.mk .literal (some 128)).OperandOk 8 := by decide
theorem test_construct_refuses_width_1 :
    construct { Params.standard with width := 1 } = .refused .notAConfiguration := by
  simp only [construct, if_neg (show ¬ { Params.standard with width := 1 }.WellFormed by decide)]

/-! ### Decoding: words written out from the table of R74 (cells of 32 bits, R84) -/

theorem test_word_noop : decodeTableWord 32 0b00000000000000000000000000000000 = some .noop := by decide
theorem test_word_dsFetch : decodeTableWord 32 0b00000000000000000000000000000001 = some .dsFetch := by decide
theorem test_word_dsStore : decodeTableWord 32 0b00000000000000000000000000000010 = some .dsStore := by decide
theorem test_word_rsFetch : decodeTableWord 32 0b00000000000000000000000000000011 = some .rsFetch := by decide
theorem test_word_rsStore : decodeTableWord 32 0b00000000000000000000000000000100 = some .rsStore := by decide
theorem test_word_literal : decodeTableWord 32 0b00000000000000000000000000000101 = some .literal := by decide
theorem test_word_dsAdd : decodeTableWord 32 0b00000000000000000000000000000110 = some .dsAdd := by decide
theorem test_word_dsSub : decodeTableWord 32 0b00000000000000000000000000000111 = some .dsSub := by decide
theorem test_word_dsMul : decodeTableWord 32 0b00000000000000000000000000001000 = some .dsMul := by decide
theorem test_word_dsDiv : decodeTableWord 32 0b00000000000000000000000000001001 = some .dsDiv := by decide
theorem test_word_dsEq : decodeTableWord 32 0b00000000000000000000000000001010 = some .dsEq := by decide
theorem test_word_if : decodeTableWord 32 0b00000000000000000000000000001011 = some .if_ := by decide
theorem test_word_then : decodeTableWord 32 0b00000000000000000000000000001100 = some .then_ := by decide
theorem test_word_jump : decodeTableWord 32 0b00000000000000000000000000001101 = some .jump := by decide
/-- R70: the literal 42 in the second cell. -/
theorem test_literal_cells :
    decodeCode OpcodeMap.standard [wordCell 32 64 0x0000002A00000005 0, wordCell 32 64 0x0000002A00000005 1] =
      some (⟨.literal, some 42⟩, []) := by decide
/-- B3: 14 and -1 are no opcodes. -/
theorem test_word_14_illegal : decodeTableWord 32 0x0000000E = none := by decide
theorem test_word_minus_1_illegal : decodeTableWord 32 0xFFFFFFFF = none := by decide

/-! ### wrap and tdiv (B1, B6) -/

theorem test_wrap_above : wrap 32 2147483648 = -2147483648 := by decide
theorem test_wrap_below : wrap 32 (-2147483649) = 2147483647 := by decide
theorem test_wrap_two_turns_down : wrap 32 (-8589934587) = 5 := by decide
theorem test_wrap_8 : wrap 8 300 = 44 ∧ wrap 8 (-129) = 127 ∧ wrap 2 (-3) = 1 ∧ wrap 16 40000 = -25536 := by decide
theorem test_tdiv_signs : tdiv 7 2 = 3 ∧ tdiv (-7) 2 = -3 ∧ tdiv 7 (-2) = -3 ∧ tdiv (-7) (-2) = 3 := by decide
theorem test_bitImage : bitImage 32 (-1) = 0xFFFFFFFF ∧ sext 32 0xFFFFFFFF = -1 ∧ sext 32 0x7FFFFFFF = 2147483647 := by
  decide

/-! ### One step per vector -/

/-- B3: `pc = 7`, DS `[5]`. -/
theorem test_noop : after (vec [] [5] [] 7) view = some (8, [5], [], .running) := by decide
/-- B3: NOOP in the last cell ends the run. -/
theorem test_noop_last_cell : after (vec [] [] [] 349) view = some (350, [], [], .terminated .endOfProgram) := by decide
/-- B3. -/
theorem test_unknown_opcode :
    after (vec [(3, 2147483647)] [1, 2] [] 3) view = some (3, [1, 2], [], faulted (.unknownOpcode 2147483647 3)) := by
  decide
/-- B3: a fetch at -3. -/
theorem test_fetch_below_zero :
    after (vec [] [] [] (-3)) view = some (-3, [], [], faulted (.addressOutOfBounds (-3))) := by decide
/-- B4. -/
theorem test_dsFetch : after (vec [(10, 1), (300, -9)] [4, 300] [] 10) view = some (11, [4, -9], [], .running) := by decide
theorem test_dsFetch_negative_address :
    after (vec [(10, 1)] [-1] [] 10) view = some (10, [-1], [], faulted (.addressOutOfBounds (-1))) := by decide
/-- B4: the popped cells are zeroed. -/
theorem test_dsStore :
    after (vec [(10, 2)] [7, 42, 300] [] 10) (fun t => (view t, t.mem, t.ds.cell 1, t.ds.cell 2)) =
      some ((11, [7], [], .running), [(10, 2), (300, 42)], 0, 0) := by decide
/-- B4: one element with a bad address underflows (R171). -/
theorem test_dsStore_one_element :
    after (vec [(10, 2)] [350] [] 10) view = some (10, [350], [], faulted (.stackUnderflow .ds)) := by decide
/-- B4: DS is not touched. -/
theorem test_rsFetch :
    after (vec [(10, 3), (300, 5)] [8] [300] 10) view = some (11, [8], [5], .running) := by decide
theorem test_rsFetch_empty :
    after (vec [(10, 3)] [300] [] 10) view = some (10, [300], [], faulted (.stackUnderflow .rs)) := by decide
/-- B4. -/
theorem test_rsStore :
    after (vec [(10, 4)] [8] [42, 300] 10) (fun t => (view t, t.mem)) =
      some ((11, [8], [], .running), [(10, 4), (300, 42)]) := by decide
theorem test_rsStore_bad_address :
    after (vec [(10, 4)] [] [1, -2] 10) view = some (10, [], [1, -2], faulted (.addressOutOfBounds (-2))) := by decide
/-- B5: an operand equal to an opcode is data. -/
theorem test_literal : after (vec [(4, 5), (5, 5)] [3] [] 4) view = some (6, [3, 5], [], .running) := by decide
/-- B5: the operand read is checked before the push. -/
theorem test_literal_last_cell_full :
    after (vec [(349, 5)] (List.replicate 20 1) [] 349) (·.status) = some (faulted (.addressOutOfBounds 350)) := by decide
/-- B6. -/
theorem test_dsAdd_wraps :
    after (vec [(1, 6)] [2147483647, 1] [] 1) view = some (2, [-2147483648], [], .running) := by decide
/-- B6: a third element below is untouched and the freed cell is 0. -/
theorem test_dsAdd_third :
    after (vec [(1, 6)] [9, 3, 4] [] 1) (fun t => (t.ds.elements, t.ds.cell 2)) = some ([9, 7], 0) := by decide
/-- B6. -/
theorem test_dsSub_order : after (vec [(1, 7)] [3, 10] [] 1) view = some (2, [-7], [], .running) := by decide
theorem test_dsSub_wraps_up :
    after (vec [(1, 7)] [-2147483648, 1] [] 1) view = some (2, [2147483647], [], .running) := by decide
/-- B6. -/
theorem test_dsMul : after (vec [(1, 8)] [46341, 46341] [] 1) view = some (2, [-2147479015], [], .running) := by decide
theorem test_dsMul_min_max :
    after (vec [(1, 8)] [-2147483648, 2147483647] [] 1) view = some (2, [-2147483648], [], .running) := by decide
/-- B6. -/
theorem test_dsDiv_min_by_minus_1 :
    after (vec [(1, 9)] [-2147483648, -1] [] 1) view = some (2, [-2147483648], [], .running) := by decide
theorem test_dsDiv_by_zero :
    after (vec [(1, 9)] [7, 0] [] 1) view = some (1, [7, 0], [], faulted .divisionByZero) := by decide
/-- B6. -/
theorem test_dsEq_equal : after (vec [(1, 10)] [5, 5] [] 1) view = some (2, [1], [], .running) := by decide
theorem test_dsEq_unequal : after (vec [(1, 10)] [-1, 1] [] 1) view = some (2, [0], [], .running) := by decide
/-- B7: an operand cell equal to THEN stops the scan. -/
theorem test_if_zero :
    after (vec [(20, 11), (21, 5), (22, 12), (23, 12)] [0] [] 20) view = some (22, [], [], .running) := by decide
/-- B7: the scan goes forward only. -/
theorem test_if_no_then :
    after (tiny [(4, 12), (9, 11)] [0] [] 9) view = some (9, [0], [], faulted (.addressOutOfBounds 16)) := by decide
/-- B7. -/
theorem test_then : after (vec [(25, 12)] [4] [] 25) view = some (26, [4], [], .running) := by decide
/-- B7: no wrap of `pc`. -/
theorem test_jump_far :
    after (vec [(20, 13)] [2147483647] [] 20) view = some (2147483667, [], [], .terminated .endOfProgram) := by decide
/-- B7: a negative target commits. -/
theorem test_jump_below_zero : after (vec [(20, 13)] [-21] [] 20) view = some (-1, [], [], .running) := by decide
/-- PR6, first step: nothing loaded executes a NOOP. -/
theorem test_reset_step : after State.reset view = some (1, [], [], .running) := by decide
/-- R194: `withFetchWord` stands for the load; the next step runs LITERAL 42 (A5). -/
theorem test_withFetchWord :
    after (State.reset.withFetchWord 64 0x0000002A00000005) view = some (2, [42], [], .running) := by decide

/-! ### Host transactions (B8) -/

theorem test_hostLoad_wraps : (hostLoad State.reset 1 4294967301).1.mem = [(1, 5)] := by decide
theorem test_hostLoad_refused : hostLoad State.reset 350 1 = (State.reset, some (.addressOutOfBounds 350)) := by decide
theorem test_hostLoad_zero_is_unlisted : (hostLoad (vec [(1, 5), (2, 6)] [] [] 0) 1 0).1.mem = [(2, 6)] := by decide
theorem test_hostPreload : (hostPreload (hostPreload State.reset .ds 3).1 .ds 4).1.ds.elements = [3, 4] := by decide
theorem test_hostPreload_full :
    (hostPreload (tiny [] [] [1, 2, 3] 2) .rs 1).2 = some (.stackOverflow .rs) := by decide
theorem test_hostDump :
    (hostDump (vec [(300, 42), (301, 1)] [] [] 0) 299 4).toOption = some [(299, 0), (300, 42), (301, 1), (302, 0)] := by
  decide
theorem test_hostDump_out : hostDump (vec [] [] [] 0) 348 3 = .error (.addressOutOfBounds 350) := by rfl
theorem test_hostStep_terminated :
    (hostStep ((vec [] [7] [] 0).terminate .endOfProgram)).1.ds.elements = [7] := by decide
theorem test_status_codes :
    [Status.running, .terminated .endOfProgram, faulted (.unknownOpcode 0 0), faulted (.stackOverflow .ds),
      faulted (.stackUnderflow .rs), faulted (.addressOutOfBounds 0), faulted .divisionByZero].map Status.code =
      [0, 1, 2, 3, 4, 5, 6] := by decide
theorem test_hostInspect_out_of_range : hostInspect State.reset (.stackCell .ds 20) = none := by decide

/-! ### Witnesses: the hypotheses of every obligation, clause by clause, can be met -/

theorem witness_WrapIsTheUniqueCongruentCellValue : InCellRange 2 (-2) ∧ cellModulus 2 ∣ -2 - 2 := by decide
theorem witness_WrapLawsAtTheEdgesAndUnderArithmetic :
    InCellRange 2 (-2) ∧ maxCell 2 < 2 ∧ 2 - (1 : Nat) * cellModulus 2 ≤ maxCell 2 ∧
      ∀ m : Nat, m < 1 → maxCell 2 < 2 - m * cellModulus 2 := by decide
theorem witness_ArithmeticIsTwosComplement : 2 ≤ 2 := by decide
theorem witness_BitImageDeterminesTheCell : InCellRange 2 (-2) ∧ InCellRange 2 1 := by decide
/-- `MIN / -1`; a quotient of 0; a quotient that is not 0. -/
theorem witness_DivisionTruncatesTowardZero :
    (InCellRange 2 (-2) ∧ InCellRange 2 (-1) ∧ (-2 : Int) = minCell 2) ∧
    (InCellRange 2 1 ∧ InCellRange 2 (-2) ∧ |(1 : Int)| < |(-2 : Int)| ∧ ¬ ((1 : Int) = minCell 2 ∧ (-2 : Int) = -1)) ∧
    |(1 : Int)| ≤ |(-2 : Int)| := by decide
/-- Full; one cell free. -/
theorem witness_PushWritesTheCellAboveTheTop :
    ((stackOf 3 [1, 2, 3]).Inv 8 3 ∧ (3 : Int) - 1 ≤ (stackOf 3 [1, 2, 3]).sp) ∧
    ((stackOf 3 [1, 2]).Inv 8 3 ∧ (stackOf 3 [1, 2]).sp < (3 : Int) - 1) := by decide
/-- Empty; one element; three pushes on an empty stack of three. -/
theorem witness_PopsReturnPushesInReverseOrder :
    ((stackOf 3 []).Inv 8 3 ∧ (stackOf 3 []).sp = -1) ∧ ((stackOf 3 [-128]).Inv 8 3 ∧ 0 ≤ (stackOf 3 [-128]).sp) ∧
    (stackOf 3 []).sp + [300, -129, 5].length ≤ (3 : Int) - 1 := by decide
/-- `-1`, `M`, `0`, `M - 1`. -/
theorem witness_MemoryAccessIsCheckedAndChangesOneCell :
    Memory.Inv 8 16 [(0, 5), (15, -128)] ∧ ((-1 : Int) < 0) ∧ ((16 : Int) ≤ 16) ∧ ((0 : Int) ≤ 0 ∧ (0 : Int) < 16) ∧
    ((0 : Int) ≤ 15 ∧ (15 : Int) < 16) := by decide
theorem witness_DecodeOfEncodeIsTheInstruction :
    tinyParams.WellFormed ∧ (Code.mk .literal (some 127)).WellFormed 8 ∧ (Code.mk .jump none).WellFormed 8 := by decide
theorem witness_EncodeOfDecodeIsTheCells :
    (∀ v ∈ [(5 : Int), -128, 77], InCellRange tinyParams.width v) ∧
      decodeCode tinyParams.opc [5, -128, 77] = some (⟨.literal, some (-128)⟩, [77]) := by decide
theorem witness_DecodingComparesTheWholeCell :
    tinyParams.WellFormed ∧ (∀ i ∈ Instr.all, (14 : Int) ≠ tinyParams.opc.code i) ∧ (-1 : Int) < 0 := by decide
/-- NOOP and THEN in the last cell. -/
theorem witness_NoopAndThenOnlyAdvance :
    (tiny [] [] [] 15).params.WellFormed ∧ (15 : Int) = 16 - 1 ∧ (tiny [] [] [] 15).mem.read 15 = tinyParams.opc.noop ∧
      (tiny [(15, 12)] [] [] 15).mem.read 15 = tinyParams.opc.then_ := by decide

/-- Empty; `M` and `-1` on top; `M - 1` on top of a full stack. -/
theorem witness_DsFetchReplacesTheAddressByTheCell :
    ((tiny [(2, 1)] [] [] 2).Inv ∧ (tiny [(2, 1)] [] [] 2).ds.sp < 0) ∧
    ((tiny [(2, 1)] [16] [] 2).Inv ∧ 0 ≤ (tiny [(2, 1)] [16] [] 2).ds.sp ∧
      ¬ (tiny [(2, 1)] [16] [] 2).InBounds (tiny [(2, 1)] [16] [] 2).ds.top) ∧
    ((tiny [(2, 1)] [-1] [] 2).Inv ∧ ¬ (tiny [(2, 1)] [-1] [] 2).InBounds (tiny [(2, 1)] [-1] [] 2).ds.top) ∧
    ((tiny [(2, 1)] [1, 2, 15] [] 2).Inv ∧ 0 ≤ (tiny [(2, 1)] [1, 2, 15] [] 2).ds.sp ∧
      (tiny [(2, 1)] [1, 2, 15] [] 2).InBounds (tiny [(2, 1)] [1, 2, 15] [] 2).ds.top) :=
  ⟨by decide, by decide, by decide, by decide⟩
/-- One element; two with `M`, `-1`, `0` on top. -/
theorem witness_DsStoreWritesTheSecondAtTheTop :
    ((tiny [(2, 2)] [9] [] 2).Inv ∧ (tiny [(2, 2)] [9] [] 2).ds.sp < 1) ∧
    ((tiny [(2, 2)] [9, 16] [] 2).Inv ∧ 1 ≤ (tiny [(2, 2)] [9, 16] [] 2).ds.sp ∧
      ¬ (tiny [(2, 2)] [9, 16] [] 2).InBounds (tiny [(2, 2)] [9, 16] [] 2).ds.top) ∧
    ((tiny [(2, 2)] [9, -1] [] 2).Inv ∧ ¬ (tiny [(2, 2)] [9, -1] [] 2).InBounds (tiny [(2, 2)] [9, -1] [] 2).ds.top) ∧
    ((tiny [(2, 2)] [9, 0] [] 2).Inv ∧ 1 ≤ (tiny [(2, 2)] [9, 0] [] 2).ds.sp ∧
      (tiny [(2, 2)] [9, 0] [] 2).InBounds (tiny [(2, 2)] [9, 0] [] 2).ds.top) :=
  ⟨by decide, by decide, by decide, by decide⟩
theorem witness_RsFetchReplacesTheAddressByTheCell :
    ((tiny [(2, 3)] [] [] 2).Inv ∧ (tiny [(2, 3)] [] [] 2).rs.sp < 0) ∧
    ((tiny [(2, 3)] [] [16] 2).Inv ∧ 0 ≤ (tiny [(2, 3)] [] [16] 2).rs.sp ∧
      ¬ (tiny [(2, 3)] [] [16] 2).InBounds (tiny [(2, 3)] [] [16] 2).rs.top) ∧
    ((tiny [(2, 3)] [] [1, 2, 15] 2).Inv ∧ 0 ≤ (tiny [(2, 3)] [] [1, 2, 15] 2).rs.sp ∧
      (tiny [(2, 3)] [] [1, 2, 15] 2).InBounds (tiny [(2, 3)] [] [1, 2, 15] 2).rs.top) :=
  ⟨by decide, by decide, by decide⟩
theorem witness_RsStoreWritesTheSecondAtTheTop :
    ((tiny [(2, 4)] [] [9] 2).Inv ∧ (tiny [(2, 4)] [] [9] 2).rs.sp < 1) ∧
    ((tiny [(2, 4)] [] [9, 16] 2).Inv ∧ 1 ≤ (tiny [(2, 4)] [] [9, 16] 2).rs.sp ∧
      ¬ (tiny [(2, 4)] [] [9, 16] 2).InBounds (tiny [(2, 4)] [] [9, 16] 2).rs.top) ∧
    ((tiny [(2, 4)] [] [9, 0] 2).Inv ∧ 1 ≤ (tiny [(2, 4)] [] [9, 0] 2).rs.sp ∧
      (tiny [(2, 4)] [] [9, 0] 2).InBounds (tiny [(2, 4)] [] [9, 0] 2).rs.top) :=
  ⟨by decide, by decide, by decide⟩
/-- `P = M - 1`; `P = M - 2` on a full stack; `P = M - 2` with one cell free. -/
theorem witness_LiteralPushesTheNextCell :
    ((tiny [(15, 5)] [] [] 15).Inv ∧ (tiny [(15, 5)] [] [] 15).InBounds 15 ∧ (16 : Int) ≤ 15 + 1) ∧
    ((tiny [(14, 5)] [1, 1, 1] [] 14).Inv ∧ (tiny [(14, 5)] [1, 1, 1] [] 14).InBounds 14 ∧ (14 : Int) + 1 < 16 ∧
      (3 : Int) - 1 ≤ (tiny [(14, 5)] [1, 1, 1] [] 14).ds.sp) ∧
    ((tiny [(14, 5)] [1, 1] [] 14).Inv ∧ (tiny [(14, 5)] [1, 1] [] 14).ds.sp < (3 : Int) - 1) :=
  ⟨by decide, by decide, by decide⟩
/-- For DS_ADD, DS_SUB, DS_MUL and DS_EQ: one element; two. -/
theorem witness_DsAddPushesTheWrappedSum :
    ((tiny [(2, 6)] [5] [] 2).Inv ∧ (tiny [(2, 6)] [5] [] 2).ds.sp < 1) ∧
    ((tiny [(2, 6)] [127, 1] [] 2).Inv ∧ 1 ≤ (tiny [(2, 6)] [127, 1] [] 2).ds.sp) :=
  ⟨by decide, by decide⟩
theorem witness_DsSubPushesTheWrappedDifference :
    ((tiny [(2, 7)] [5] [] 2).Inv ∧ (tiny [(2, 7)] [5] [] 2).ds.sp < 1) ∧
    ((tiny [(2, 7)] [-128, 1] [] 2).Inv ∧ 1 ≤ (tiny [(2, 7)] [-128, 1] [] 2).ds.sp) :=
  ⟨by decide, by decide⟩
theorem witness_DsMulPushesTheWrappedProduct :
    ((tiny [(2, 8)] [5] [] 2).Inv ∧ (tiny [(2, 8)] [5] [] 2).ds.sp < 1) ∧
    ((tiny [(2, 8)] [-128, -1] [] 2).Inv ∧ 1 ≤ (tiny [(2, 8)] [-128, -1] [] 2).ds.sp) :=
  ⟨by decide, by decide⟩
theorem witness_DsEqPushesOneOrZero :
    ((tiny [(2, 10)] [5] [] 2).Inv ∧ (tiny [(2, 10)] [5] [] 2).ds.sp < 1) ∧
    ((tiny [(2, 10)] [-128, -128] [] 2).Inv ∧ 1 ≤ (tiny [(2, 10)] [-128, -128] [] 2).ds.sp) :=
  ⟨by decide, by decide⟩
/-- One element that is zero; a zero divisor; a non-zero one. -/
theorem witness_DsDivPushesTheTruncatedQuotient :
    ((tiny [(2, 9)] [0] [] 2).Inv ∧ (tiny [(2, 9)] [0] [] 2).ds.sp < 1) ∧
    ((tiny [(2, 9)] [7, 0] [] 2).Inv ∧ 1 ≤ (tiny [(2, 9)] [7, 0] [] 2).ds.sp ∧
      (tiny [(2, 9)] [7, 0] [] 2).ds.top = 0) ∧
    ((tiny [(2, 9)] [-128, -1] [] 2).Inv ∧ 1 ≤ (tiny [(2, 9)] [-128, -1] [] 2).ds.sp ∧
      (tiny [(2, 9)] [-128, -1] [] 2).ds.top ≠ 0) :=
  ⟨by decide, by decide, by decide⟩

/-- IF in the cell 13 with THEN cells at 14 and 15, with none, and on an empty stack; IF in the last cell. -/
theorem witness_IfBranchesOnTheTopOfTheStack :
    ((tiny [(13, 11)] [] [] 13).Inv ∧ (tiny [(13, 11)] [] [] 13).InBounds 13 ∧ (tiny [(13, 11)] [] [] 13).ds.sp < 0) ∧
    ((tiny [(13, 11)] [0] [] 13).Inv ∧ (tiny [(13, 11)] [0] [] 13).ds.top = 0 ∧
      ∀ u : Int, 13 < u → u < 16 → (tiny [(13, 11)] [0] [] 13).mem.read u.toNat ≠ 12) ∧
    ((tiny [(15, 11)] [0] [] 15).Inv ∧ (tiny [(15, 11)] [0] [] 15).InBounds 15 ∧
      ∀ u : Int, 15 < u → u < 16 → (tiny [(15, 11)] [0] [] 15).mem.read u.toNat ≠ 12) ∧
    ((tiny [(15, 11)] [-1] [] 15).Inv ∧ 0 ≤ (tiny [(15, 11)] [-1] [] 15).ds.sp ∧ (tiny [(15, 11)] [-1] [] 15).ds.top ≠ 0) ∧
    ((tiny [(13, 11), (14, 12), (15, 12)] [0] [] 13).Inv ∧ (13 : Int) < 14 ∧ (14 : Int) < 16 ∧
      (tiny [(13, 11), (14, 12), (15, 12)] [0] [] 13).mem.read 14 = 12 ∧
      ∀ u : Int, 13 < u → u < 14 → (tiny [(13, 11), (14, 12), (15, 12)] [0] [] 13).mem.read u.toNat ≠ 12) ∧
    ((tiny [(13, 11), (15, 12)] [0] [] 13).Inv ∧ (tiny [(13, 11), (15, 12)] [0] [] 13).mem.read 15 = 12 ∧
      ∀ u : Int, 13 < u → u < 15 → (tiny [(13, 11), (15, 12)] [0] [] 13).mem.read u.toNat ≠ 12) :=
  ⟨by decide, by decide, by decide, by decide, by decide, by decide⟩
theorem witness_ScanFindsTheFirstThen :
    (tiny [(13, 11)] [0] [] 13).InBounds 0 ∧ (tiny [(13, 11)] [0] [] 13).InBounds 15 := by decide
theorem witness_JumpAddsTheOffsetToItsOwnAddress :
    ((tiny [(2, 13)] [] [] 2).Inv ∧ (tiny [(2, 13)] [] [] 2).ds.sp < 0) ∧
    ((tiny [(2, 13)] [-3] [] 2).Inv ∧ 0 ≤ (tiny [(2, 13)] [-3] [] 2).ds.sp) :=
  ⟨by decide, by decide⟩
/-- Two elements over one, the top a legal address and non-zero; room for LITERAL. -/
theorem witness_StackPicturesOfTheDataStack :
    ((tiny [(2, 6)] [4, 7, 15] [] 2).Inv ∧ (tiny [(2, 6)] [4, 7, 15] [] 2).InBounds 2 ∧
      (tiny [(2, 6)] [4, 7, 15] [] 2).ds.elements = [4] ++ [7, 15] ∧ (15 : Int) ≠ 0 ∧
      (tiny [(2, 6)] [4, 7, 15] [] 2).InBounds 15 ∧ (tiny [(2, 6)] [4, 7, 15] [] 2).ds.elements = [4, 7] ++ [15] ∧
      ((tiny [(2, 6)] [4, 7, 15] [] 2).memRead 15).toOption = some 0) ∧
    ((tiny [(2, 5), (3, 9)] [4, 7] [] 2).Inv ∧ ((tiny [(2, 5), (3, 9)] [4, 7] [] 2).memRead 3).toOption = some 9 ∧
      (tiny [(2, 5), (3, 9)] [4, 7] [] 2).ds.elements.length < 3) :=
  ⟨by decide, by decide⟩
theorem witness_StackPicturesOfTheReturnStack :
    (tiny [(2, 3)] [] [4, 15] 2).Inv ∧ (tiny [(2, 3)] [] [4, 15] 2).rs.elements = [4] ++ [15] ∧
      ((tiny [(2, 3)] [] [4, 15] 2).memRead 15).toOption = some 0 ∧
      (tiny [(2, 3)] [] [4, 15] 2).rs.elements = [] ++ [4, 15] ∧ (tiny [(2, 3)] [] [4, 15] 2).InBounds 15 := by decide

/-- A load that completes. -/
theorem witness_OnlyStoresWriteMemory :
    ∃ t, exec .dsFetch (tiny [(2, 1)] [15] [] 2) = .next t ∧ t.pc = 3 := ⟨_, rfl, by decide⟩
/-- A store to `M - 1`, one to 0; then both stores with one element, and with `M` and `-1` on top. -/
theorem witness_StoreChangesOnlyTheAddressedCell :
    ((tiny [(2, 2)] [4, 9, 15] [] 2).Inv ∧ (tiny [(2, 2)] [4, 9, 15] [] 2).ds.top = 15 ∧
      1 ≤ (tiny [(2, 2)] [4, 9, 15] [] 2).ds.sp ∧ (tiny [(2, 2)] [4, 9, 15] [] 2).InBounds 15) ∧
    ((tiny [(2, 4)] [] [4, 9, 0] 2).Inv ∧ (tiny [(2, 4)] [] [4, 9, 0] 2).rs.top = 0 ∧
      1 ≤ (tiny [(2, 4)] [] [4, 9, 0] 2).rs.sp ∧ (tiny [(2, 4)] [] [4, 9, 0] 2).InBounds 0) ∧
    (∃ t, exec .dsStore (tiny [(2, 2)] [4, 9, 15] [] 2) = .next t ∧ t.pc = 3) ∧
    (∃ t, exec .rsStore (tiny [(2, 4)] [] [4, 9, 0] 2) = .next t ∧ t.pc = 3) ∧
    (∃ t, exec .dsStore (tiny [(2, 2)] [9] [] 2) = .next t ∧ (tiny [(2, 2)] [9] [] 2).Inv ∧
      (tiny [(2, 2)] [9] [] 2).ds.sp < 1 ∧ t.pc = 2) ∧
    (∃ t, exec .dsStore (tiny [(2, 2)] [9, 16] [] 2) = .next t ∧ (tiny [(2, 2)] [9, 16] [] 2).Inv ∧
      ¬ (tiny [(2, 2)] [9, 16] [] 2).InBounds 16 ∧ t.pc = 2) ∧
    (∃ t, exec .rsStore (tiny [(2, 4)] [] [9] 2) = .next t ∧ (tiny [(2, 4)] [] [9] 2).Inv ∧
      (tiny [(2, 4)] [] [9] 2).rs.sp < 1 ∧ t.pc = 2) ∧
    ∃ t, exec .rsStore (tiny [(2, 4)] [] [9, -1] 2) = .next t ∧ (tiny [(2, 4)] [] [9, -1] 2).Inv ∧
      ¬ (tiny [(2, 4)] [] [9, -1] 2).InBounds (-1) ∧ t.pc = 2 :=
  ⟨by decide, by decide, ⟨_, rfl, by decide⟩, ⟨_, rfl, by decide⟩, ⟨_, rfl, by decide⟩, ⟨_, rfl, by decide⟩,
    ⟨_, rfl, by decide⟩, _, rfl, by decide⟩
/-- RS_FETCH for the first clause, DS_ADD for the second. -/
theorem witness_StacksTouchedByTheirOwnInstructions :
    (∃ t, exec .rsFetch (tiny [(2, 3)] [7] [2] 2) = .next t ∧ t.rs.elements = [3]) ∧
    ∃ t, exec .dsAdd (tiny [(2, 6)] [3, 4] [8] 2) = .next t ∧ t.ds.elements = [7] :=
  ⟨⟨_, rfl, by decide⟩, _, rfl, by decide⟩
theorem witness_StackCellsAwayFromTheTopAreUnchanged :
    (-1 ≤ (tiny [(2, 6)] [9, 3, 4] [] 2).ds.sp ∧ (0 : Int) ≠ (tiny [(2, 6)] [9, 3, 4] [] 2).ds.sp - 1 ∧
      (0 : Int) ≠ (tiny [(2, 6)] [9, 3, 4] [] 2).ds.sp ∧ (0 : Int) ≠ (tiny [(2, 6)] [9, 3, 4] [] 2).ds.sp + 1) ∧
    ∃ t, exec .dsAdd (tiny [(2, 6)] [9, 3, 4] [] 2) = .next t ∧ t.ds.cell 0 = 9 :=
  ⟨by decide, _, rfl, by decide⟩
/-- A fault; a plain instruction; LITERAL; IF with both conditions; JUMP. -/
theorem witness_PcAfterEachInstruction :
    (∃ t, exec .dsAdd (tiny [(2, 6)] [] [] 2) = .next t ∧ (tiny [(2, 6)] [] [] 2).Inv ∧ t.status ≠ .running) ∧
    (∃ t, exec .then_ (tiny [(15, 12)] [] [] 15) = .next t ∧ (tiny [(15, 12)] [] [] 15).Inv ∧
      (tiny [(15, 12)] [] [] 15).InBounds 15 ∧ t.status = .running) ∧
    (∃ t, exec .literal (tiny [(14, 5)] [] [] 14) = .next t ∧ (tiny [(14, 5)] [] [] 14).Inv ∧ t.status = .running) ∧
    (∃ t, exec .if_ (tiny [(2, 11)] [1] [] 2) = .next t ∧ (tiny [(2, 11)] [1] [] 2).Inv ∧ t.status = .running) ∧
    (∃ t, exec .if_ (tiny [(2, 11), (15, 12)] [0] [] 2) = .next t ∧ (tiny [(2, 11), (15, 12)] [0] [] 2).Inv ∧
      t.status = .running) ∧
    ∃ t, exec .jump (tiny [(2, 13)] [-128] [] 2) = .next t ∧ (tiny [(2, 13)] [-128] [] 2).Inv ∧ t.status = .running :=
  ⟨⟨_, rfl, by decide⟩, ⟨_, rfl, by decide⟩, ⟨_, rfl, by decide⟩, ⟨_, rfl, by decide⟩, ⟨_, rfl, by decide⟩, _, rfl,
    by decide⟩

theorem witness_FaultDiscardsEveryWrite :
    ∃ t, exec .dsStore (tiny [(2, 2)] [9, 16] [] 2) = .next t ∧ t.status = faulted (.addressOutOfBounds 16) :=
  ⟨_, rfl, by decide⟩
/-- A fault; a normal end. -/
theorem witness_TerminalConditionWritesOnlyStatus :
    (∃ t, step (tiny [(2, 2)] [9, 16] [] 2) = .next t ∧ t.status = faulted (.addressOutOfBounds 16)) ∧
    ∃ t, step (tiny [(15, 12)] [] [] 15) = .next t ∧ t.status = .terminated .endOfProgram :=
  ⟨⟨_, rfl, by decide⟩, _, rfl, by decide⟩
/-- Every clause is met: the four kinds of fault, underflow also of a one-operand instruction, out of bounds from each of
its sources, the last instruction of memory included; and an instruction that raises none. -/
theorem witness_FaultsComeFromTheirCauses :
    ([(Instr.literal, tiny [(2, 5)] [1, 1, 1] [] 2, faulted (.stackOverflow .ds)),
      (.dsDiv, tiny [(2, 9)] [0, 0] [] 2, faulted .divisionByZero),
      (.jump, tiny [(2, 13)] [] [1] 2, faulted (.stackUnderflow .ds)),
      (.rsStore, tiny [(2, 4)] [] [9] 2, faulted (.stackUnderflow .rs)),
      (.literal, tiny [(15, 5)] [] [] 15, faulted (.addressOutOfBounds 16)),
      (.if_, tiny [(15, 11)] [0] [] 15, faulted (.addressOutOfBounds 16)),
      (.dsFetch, tiny [(2, 1)] [-1] [] 2, faulted (.addressOutOfBounds (-1))),
      (.dsStore, tiny [(2, 2)] [9, 16] [] 2, faulted (.addressOutOfBounds 16)),
      (.rsFetch, tiny [(2, 3)] [] [16] 2, faulted (.addressOutOfBounds 16)),
      (.rsStore, tiny [(2, 4)] [] [9, -1] 2, faulted (.addressOutOfBounds (-1))),
      (.dsFetch, tiny [(2, 1)] [15] [] 2, .running)]).all
      (fun c => decide c.2.1.Inv && decide (c.2.1.status = .running) && decide (c.2.1.InBounds c.2.1.pc) &&
        match exec c.1 c.2.1 with
        | .next t => decide (t.status = c.2.2)
        | .fault _ | .refused _ => false) = true := by decide
/-- `pc = -1`, `pc = M`; an unregistered cell; the end test met and not met; a fault of the instruction. -/
theorem witness_StepRunsTheDecodedInstruction :
    (¬ (tiny [] [] [] (-1)).InBounds (-1) ∧ ¬ (tiny [] [] [] 16).InBounds 16) ∧
    ((tiny [(2, 14)] [] [] 2).InBounds 2 ∧
      ∀ i ∈ Instr.all, (tiny [(2, 14)] [] [] 2).mem.read 2 ≠ tinyParams.opc.code i) ∧
    ((tiny [] [] [] 15).InBounds 15 ∧ decode tinyParams.opc ((tiny [] [] [] 15).mem.read 15) = some .noop) ∧
    (∃ u, exec .noop (tiny [] [] [] 15) = .next u ∧ u.status = .running ∧ (16 : Int) ≤ u.pc) ∧
    (∃ u, exec .noop (tiny [] [] [] 14) = .next u ∧ ¬ (16 : Int) ≤ u.pc) ∧
    ∃ u, exec .jump (tiny [(2, 13)] [] [] 2) = .next u ∧ u.status = faulted (.stackUnderflow .ds) :=
  ⟨by decide, by decide, by decide, ⟨_, rfl, by decide⟩, ⟨_, rfl, by decide⟩, _, rfl, by decide⟩
theorem witness_TerminatedEngineNeverChanges :
    ((tiny [] [] [] 16).terminate .endOfProgram).status = .terminated .endOfProgram := by decide
theorem witness_JumpBelowZeroFaultsAtTheNextFetch :
    (tiny [(2, 13)] [-3] [] 2).Inv ∧ (tiny [(2, 13)] [-3] [] 2).InBounds 2 ∧
      (tiny [(2, 13)] [-3] [] 2).mem.read 2 = tinyParams.opc.jump ∧ 0 ≤ (tiny [(2, 13)] [-3] [] 2).ds.sp ∧
      2 + (tiny [(2, 13)] [-3] [] 2).ds.top < 0 := by decide
theorem witness_JumpPastTheEndTerminatesNormally :
    (tiny [(2, 13)] [14] [] 2).Inv ∧ (tiny [(2, 13)] [14] [] 2).InBounds 2 ∧
      (tiny [(2, 13)] [14] [] 2).mem.read 2 = tinyParams.opc.jump ∧ 0 ≤ (tiny [(2, 13)] [14] [] 2).ds.sp ∧
      (16 : Int) ≤ 2 + (tiny [(2, 13)] [14] [] 2).ds.top := by decide
/-- A store from the last cell but one into the last. -/
theorem witness_StoreIsSeenByTheNextFetch :
    (tiny [(14, 2)] [6, 15] [] 14).Inv ∧ (tiny [(14, 2)] [6, 15] [] 14).InBounds 14 ∧
      (tiny [(14, 2)] [6, 15] [] 14).mem.read 14 = tinyParams.opc.dsStore ∧ 1 ≤ (tiny [(14, 2)] [6, 15] [] 14).ds.sp ∧
      (tiny [(14, 2)] [6, 15] [] 14).ds.top = 14 + 1 ∧ (14 : Int) + 1 < 16 ∧
      (tiny [(14, 2)] [6, 15] [] 14).ds.cell ((tiny [(14, 2)] [6, 15] [] 14).ds.sp - 1) =
        tinyParams.opc.code .dsAdd := by decide
theorem witness_OffsetsAreReadOnlyByReset : ∃ t, step (tiny [(2, 6)] [3, 4] [] 2) = .next t ∧ t.pc = 3 :=
  ⟨_, rfl, by decide⟩
theorem witness_HostResetGivesEveryPieceItsResetValue :
    (tiny [] [] [] 2).InBounds 15 ∧ (0 : Int) ≤ 2 ∧ (2 : Int) < (tiny [] [] [] 2).params.depth := by decide
theorem witness_StepKeepsTheInvariant :
    (tiny [(2, 2)] [9, 15] [] 2).Inv ∧ ∃ t, step (tiny [(2, 2)] [9, 15] [] 2) = .next t ∧ t.pc = 3 :=
  ⟨by decide, _, rfl, by decide⟩
theorem witness_ConstructionRefusesNonConfigurations :
    tinyParams.WellFormed ∧ ¬ { tinyParams with memSize := 2 }.WellFormed := by decide
theorem witness_LaunchStatesAreSound : (tiny [(2, 2)] [9, 15] [] 2).params.WellFormed := by decide
theorem witness_EveryRunFromALaunchStateIsSound : State.reset.params.WellFormed := by decide
theorem witness_HostLoadIsACheckedPointWrite :
    (tiny [] [] [] 2).Inv ∧ (tiny [] [] [] 2).InBounds 0 ∧ ¬ (tiny [] [] [] 2).InBounds 16 := by decide
/-- One cell free, with a stack cell below and the one above the new top; full. -/
theorem witness_HostPreloadIsAReportedPush :
    ((tiny [] [1] [] 2).Inv ∧ (tiny [] [1] [] 2).ds.elements.length < 3 ∧ (0 : Int) ≠ (tiny [] [1] [] 2).ds.sp + 1 ∧
      (2 : Int) ≠ (tiny [] [1] [] 2).ds.sp + 1) ∧
    ((tiny [] [1, 2] [] 2).Inv ∧ (tiny [] [1, 2] [] 2).ds.elements.length < 3) ∧
    ((tiny [] [1, 2, 3] [] 2).Inv ∧ (tiny [] [1, 2, 3] [] 2).ds.elements.length = 3) :=
  ⟨by decide, by decide, by decide⟩
/-- A listing that fills memory from `PROGRAM_OFFSET` to the end, and a cell below it. -/
theorem witness_LoadedListingLiesAtTheProgramOffset :
    (tiny [] [] [] 2).params.WellFormed ∧ (2 : Int) + (List.replicate 14 (ListingItem.mnemonic .jump)).length ≤ 16 ∧
      ((tiny [] [] [] 2).InBounds 1 ∧ (1 : Int) < 2) := by decide
/-- A step that changes the state and leaves it Running; one that ends the run. -/
theorem witness_HostRunIsRepeatedHostStep :
    (∃ t, step (tiny [(2, 6)] [3, 4] [] 2) = .next t ∧ t.pc = 3 ∧ t.status = .running) ∧
    ∃ t, step (tiny [] [] [] 15) = .next t ∧ t.status = .terminated .endOfProgram :=
  ⟨⟨_, rfl, by decide⟩, _, rfl, by decide⟩
theorem witness_HostInspectReturnsTheState :
    (tiny [] [] [] 2).InBounds 15 ∧ (0 : Int) ≤ 2 ∧ (2 : Int) < (tiny [] [] [] 2).params.depth := by decide
/-- The last two cells; no cell, from an address outside memory; a range that starts below 0; one that leaves memory at
`M`. -/
theorem witness_HostDumpReturnsTheRangeOrTheLeastBadAddress :
    (∀ a : Int, 14 ≤ a → a < 16 → (tiny [] [] [] 2).InBounds a) ∧
    (¬ (tiny [] [] [] 2).InBounds 17 ∧ ∀ a : Int, 17 ≤ a → a < 17 + (0 : Nat) → (tiny [] [] [] 2).InBounds a) ∧
    ((-1 : Int) ≤ -1 ∧ (-1 : Int) < -1 + 2 ∧ ¬ (tiny [] [] [] 2).InBounds (-1)) ∧
    ((15 : Int) ≤ 16 ∧ (16 : Int) < 15 + 3 ∧ ¬ (tiny [] [] [] 2).InBounds 16 ∧
      ∀ b : Int, 15 ≤ b → b < 16 → (tiny [] [] [] 2).InBounds b) := by decide
theorem witness_UnloadedCellExecutesAsNoop :
    (tiny [] [] [] 14).params.opc = OpcodeMap.standard ∧ (tiny [] [] [] 14).InBounds 14 ∧
      (tiny [] [] [] 14).mem.read 14 = 0 ∧ (14 : Int) + 1 < 16 := by decide

end Sys2Proof.Tests
end

section
/-! PROOFS of the family `00_scope.md` (spec R8, R14): the elements of a stack under pushes and pops, the next state of
an operation whose checks pass, and from the two the stack pictures. -/

namespace Sys2Proof.Machine

/-! ### The elements of a stack, bottom first -/

section
variable {st : Stack} {W D : Nat} {xs : List Int} {a b v : Int}

/-- The elements of a non-empty stack: those left by a pop, then the top. -/
theorem Stack.elements_eq_popped_concat_top (h0 : 0 ≤ st.sp) (hlt : st.sp < st.cells.length) :
    st.elements = st.popped.elements ++ [st.top] := by
  have hn : st.sp.toNat < st.cells.length := by omega
  have hsucc : (st.sp + 1).toNat = st.sp.toNat + 1 := by omega
  simp [Stack.elements, Stack.top, Stack.cell_of_nonneg h0, hsucc, List.take_set_of_le, hn]

/-- A push appends the value pushed. -/
theorem Stack.elements_pushed (hsp : -1 ≤ st.sp) (hlt : st.sp + 1 < st.cells.length) :
    (st.pushed v).elements = st.elements ++ [v] := by
  have h := Stack.elements_eq_popped_concat_top (st := st.pushed v) (by simp; omega) (by simpa using hlt)
  rw [Stack.pushed_top hsp hlt] at h
  simpa [Stack.elements, List.take_set_of_le] using h

/-- The number of elements is `sp + 1`. -/
theorem Stack.Inv.elements_length (h : st.Inv W D) : (st.elements.length : Int) = st.sp + 1 := by
  obtain ⟨hlen, ⟨hlo, hhi⟩, -, -⟩ := h
  simp only [Stack.elements, List.length_take]
  omega

/-- What a last element says of the stack: it is the top, and the elements before it are those a pop leaves. -/
theorem Stack.Inv.of_elements_concat (h : st.Inv W D) (he : st.elements = xs ++ [a]) :
    0 ≤ st.sp ∧ st.top = a ∧ st.popped.elements = xs := by
  have hlen := h.elements_length
  obtain ⟨hD, ⟨-, hhi⟩, -, -⟩ := h
  have h0 : 0 ≤ st.sp := by simp [he] at hlen; omega
  rw [Stack.elements_eq_popped_concat_top h0 (by omega), List.append_singleton_inj] at he
  exact ⟨h0, he.2, he.1⟩

/-- The same for the two last elements, with two pops. -/
theorem Stack.Inv.of_elements_pair (h : st.Inv W D) (he : st.elements = xs ++ [b, a]) :
    1 ≤ st.sp ∧ st.top = a ∧ st.cell (st.sp - 1) = b ∧ st.popped.popped.elements = xs := by
  obtain ⟨h0, htop, hpop⟩ := h.of_elements_concat (xs := xs ++ [b]) (by simpa using he)
  obtain ⟨h1, htop', hpop'⟩ := (h.popped h0).of_elements_concat hpop
  rw [Stack.popped_top h0] at htop'
  exact ⟨by simpa using h1, htop, htop', hpop'⟩

/-- A pop and a push: the last element is replaced. -/
theorem Stack.Inv.elements_popped_pushed (h : st.Inv W D) (he : st.elements = xs ++ [a]) :
    (st.popped.pushed v).elements = xs ++ [v] := by
  obtain ⟨h0, -, hpop⟩ := h.of_elements_concat he
  obtain ⟨hD, ⟨-, hhi⟩, -, -⟩ := h
  rw [Stack.elements_pushed (by simp; omega) (by simp; omega), hpop]

/-- Two pops and a push: one element stands for the last two. -/
theorem Stack.Inv.elements_popped_popped_pushed (h : st.Inv W D) (he : st.elements = xs ++ [b, a]) :
    (st.popped.popped.pushed v).elements = xs ++ [v] := by
  obtain ⟨h0, -, hpop⟩ := h.of_elements_concat (xs := xs ++ [b]) (by simpa using he)
  exact (h.popped h0).elements_popped_pushed hpop

end

/-! ### The invariant and the memory path -/

section
variable {s t : State} {k : StackId} {xs : List Int} {a b v r : Int}

theorem State.Inv.wellFormed (hs : s.Inv) : s.params.WellFormed := hs.1
theorem State.Inv.memory (hs : s.Inv) : s.mem.Inv s.params.width s.params.memSize := hs.2.1

/-- Both stacks of a sound state meet the stack invariant. -/
theorem State.Inv.stack (hs : s.Inv) (k : StackId) : (s.stack k).Inv s.params.width s.params.depth := by
  obtain ⟨-, -, hds, hrs, -, -⟩ := hs
  cases k
  · exact hds
  · exact hrs

/-- In a sound state a cell value is stored as it is. -/
theorem State.Inv.wrap_eq (hs : s.Inv) (hv : InCellRange s.params.width v) : wrap s.params.width v = v := by
  have hW := hs.wellFormed.two_le_width
  exact wrap_of_inCellRange (by omega) hv

/-- A cell of memory moves to a stack unreduced. -/
theorem State.Inv.wrap_read (hs : s.Inv) (n : Nat) : wrap s.params.width (s.mem.read n) = s.mem.read n :=
  hs.wrap_eq (hs.memory.read_inCellRange n)

/-- A cell of a stack moves to memory unreduced. -/
theorem State.Inv.wrap_cell (hs : s.Inv) (k : StackId) (i : Int) :
    wrap s.params.width ((s.stack k).cell i) = (s.stack k).cell i :=
  hs.wrap_eq ((hs.stack k).cell_inCellRange i)

theorem State.memRead_eq_ok_iff : s.memRead a = .ok v ↔ s.InBounds a ∧ s.mem.read a.toNat = v := by
  by_cases hb : s.InBounds a
  · simpa [State.memRead_ok hb] using fun _ => hb
  · simp [State.memRead_error hb, hb]

/-- The cell just written reads back the value. -/
theorem State.memRead_of_mem_write (hwf : s.mem.wf) (hb : s.InBounds a) (hparams : t.params = s.params)
    (hmem : t.mem = s.mem.write a.toNat v) : t.memRead a = .ok v := by
  have hb' : t.InBounds a := by simpa only [State.InBounds, hparams] using hb
  rw [State.memRead_ok hb', hmem, Memory.read_write_same hwf]

/-! ### The next state where every check passes -/

/-- An operation that raises no fault is what the instruction does. -/
theorem exec_of_operation_ok {i : Instr} (h : s.operation i = .ok t) : exec i s = .next t := by
  rw [exec_eq_commit, h, State.commit_ok]

/-- A load with address `a` on top puts the cell at `a` in its place. -/
theorem State.load_of_elements (hs : s.Inv) (he : (s.stack k).elements = xs ++ [a]) (hv : s.memRead a = .ok v) :
    s.load k = .ok ((s.setStack k ((s.stack k).popped.pushed v)).advance 1) := by
  obtain ⟨hb, rfl⟩ := State.memRead_eq_ok_iff.mp hv
  obtain ⟨h0, rfl, -⟩ := (hs.stack k).of_elements_concat he
  obtain ⟨-, ⟨-, hD⟩, -, -⟩ := hs.stack k
  rcases s.load_cases k with ⟨hu, -⟩ | ⟨-, hnb, -⟩ | ⟨-, -, ho, -⟩ | ⟨-, -, -, hok⟩
  · omega
  · exact absurd hb hnb
  · omega
  · rw [hok, hs.wrap_read, Stack.popped_pushed]

/-- A store with address `a` over the value `b` pops both and writes `b`. -/
theorem State.store_of_elements (hs : s.Inv) (he : (s.stack k).elements = xs ++ [b, a]) (hb : s.InBounds a) :
    s.store k = .ok ({ s.setStack k (s.stack k).popped.popped with mem := s.mem.write a.toNat b }.advance 1) := by
  obtain ⟨h1, rfl, rfl, -⟩ := (hs.stack k).of_elements_pair he
  rcases s.store_cases k with ⟨hu, -⟩ | ⟨-, hnb, -⟩ | ⟨-, -, hok⟩
  · omega
  · exact absurd hb hnb
  · rw [hok, hs.wrap_cell]

/-- A two-operand instruction whose operation answers `r` puts the reduced `r` in the place of both operands. -/
theorem State.binary_of_elements {op : Int → Int → Except Fault Int} (hs : s.Inv)
    (he : s.ds.elements = xs ++ [b, a]) (hop : op b a = .ok r) :
    s.binary op = .ok ((s.setStack .ds (s.ds.popped.popped.pushed (wrap s.params.width r))).advance 1) := by
  obtain ⟨h1, rfl, rfl, -⟩ := (hs.stack .ds).of_elements_pair he
  obtain ⟨-, ⟨-, hD⟩, -, -⟩ := hs.stack .ds
  simp only [State.stack_ds] at h1 hD hop
  rcases s.binary_cases op with ⟨hu, -⟩ | ⟨-, f, hf, -⟩ | ⟨-, ho, -⟩ | ⟨-, -, r', hr', hok⟩
  · omega
  · simp [hop] at hf
  · omega
  · obtain rfl : r = r' := by simpa [hop] using hr'
    rw [hok, Stack.popped_popped_pushed]

/-- IF with a non-zero condition pops it and falls into the block. -/
theorem State.branchIf_of_elements (hs : s.Inv) (he : s.ds.elements = xs ++ [a]) (ha : a ≠ 0) :
    s.branchIf = .ok ((s.setStack .ds s.ds.popped).advance 1) := by
  obtain ⟨h0, rfl, -⟩ := (hs.stack .ds).of_elements_concat he
  rcases s.branchIf_cases with ⟨hu, -⟩ | ⟨-, -, hok⟩ | ⟨-, hz, -⟩ | ⟨-, hz, -⟩
  · exact absurd hu (not_lt.mpr h0)
  · exact hok
  · exact absurd hz ha
  · exact absurd hz ha

/-- JUMP pops its offset and adds it to its own address. -/
theorem State.jumpRelative_of_elements (hs : s.Inv) (he : s.ds.elements = xs ++ [a]) :
    s.jumpRelative = .ok ((s.setStack .ds s.ds.popped).setPc (s.pc + a)) := by
  obtain ⟨h0, rfl, -⟩ := (hs.stack .ds).of_elements_concat he
  rcases s.jumpRelative_cases with ⟨hu, -⟩ | ⟨-, hok⟩
  · exact absurd hu (not_lt.mpr h0)
  · exact hok

/-- LITERAL with room on DS pushes its operand cell. -/
theorem State.pushLiteral_of_room (hs : s.Inv) (hv : s.memRead (s.pc + 1) = .ok v)
    (hroom : s.ds.sp < (s.params.depth : Int) - 1) :
    s.pushLiteral = .ok ((s.setStack .ds (s.ds.pushed v)).advance 2) := by
  obtain ⟨hb, rfl⟩ := State.memRead_eq_ok_iff.mp hv
  rcases s.pushLiteral_cases with ⟨hnb, -⟩ | ⟨-, ho, -⟩ | ⟨-, -, hok⟩
  · exact absurd hb hnb
  · omega
  · rw [hok, hs.wrap_read]

/-- DS_EQ's outcome is stored as it is (R129). -/
theorem State.Inv.wrap_equalityFlag (hs : s.Inv) :
    wrap s.params.width (equalityFlag b a) = if b = a then 1 else 0 := by
  have hflag : equalityFlag b a = if b = a then 1 else 0 := by simp [equalityFlag, eq_comm]
  rw [hflag]
  split
  · exact hs.wrap_eq (one_inCellRange hs.wellFormed.two_le_width)
  · exact hs.wrap_eq (zero_inCellRange _)

/-! ### Stack pictures of the shared operations (R14) -/

/-- DS `( b a -- r )` of a two-operand instruction, `r` reduced. -/
theorem exec_binary_picture {i : Instr} {op : Int → Int → Except Fault Int} (hi : s.operation i = s.binary op)
    (hs : s.Inv) (he : s.ds.elements = xs ++ [b, a]) (hop : op b a = .ok r) :
    ∃ t, exec i s = .next t ∧ t.ds.elements = xs ++ [wrap s.params.width r] ∧ t.pc = s.pc + 1 :=
  ⟨_, exec_of_operation_ok (hi.trans (State.binary_of_elements hs he hop)),
    (hs.stack .ds).elements_popped_popped_pushed he, rfl⟩

/-- DS `( -- literal )` of LITERAL. -/
theorem exec_literal_picture (hs : s.Inv) (hv : s.memRead (s.pc + 1) = .ok v)
    (hlen : s.ds.elements.length < s.params.depth) :
    ∃ t, exec .literal s = .next t ∧ t.ds.elements = s.ds.elements ++ [v] ∧ t.pc = s.pc + 2 := by
  have hsp := (hs.stack .ds).elements_length
  obtain ⟨hD, ⟨hlo, -⟩, -, -⟩ := hs.stack .ds
  simp only [State.stack_ds] at hsp hD hlo
  exact ⟨_, exec_of_operation_ok (State.pushLiteral_of_room hs hv (by omega)),
    Stack.elements_pushed hlo (by omega), rfl⟩

end

/-! ### The obligations -/

/-- Settles O28: the picture of each instruction is that of the operation it shares. -/
theorem stackPicturesOfTheDataStack : Obligations.StackPicturesOfTheDataStack := by
  intro s xs b a hs _
  refine ⟨fun he => ?twoElements, fun he => ?oneElement, fun v hv hlen => exec_literal_picture hs hv hlen⟩
  case twoElements =>
    obtain ⟨-, -, -, hel⟩ := (hs.stack .ds).of_elements_pair he
    refine ⟨exec_binary_picture (op := fun b a => .ok (b + a)) rfl hs he rfl,
      exec_binary_picture (op := fun b a => .ok (b - a)) rfl hs he rfl,
      exec_binary_picture (op := fun b a => .ok (b * a)) rfl hs he rfl,
      fun ha => exec_binary_picture (op := quotient) rfl hs he (if_neg ha), ?dsEq, fun hb => ?dsStore⟩
    case dsEq =>
      rw [← hs.wrap_equalityFlag]
      exact exec_binary_picture (op := fun b a => .ok (equalityFlag b a)) rfl hs he rfl
    case dsStore =>
      exact ⟨_, exec_of_operation_ok (State.store_of_elements hs he hb), hel,
        State.memRead_of_mem_write hs.memory.1 hb rfl rfl, rfl⟩
  case oneElement =>
    obtain ⟨-, -, hel⟩ := (hs.stack .ds).of_elements_concat he
    refine ⟨fun v hv => ?dsFetch, fun ha => ?if_, ?jump⟩
    case dsFetch =>
      exact ⟨_, exec_of_operation_ok (State.load_of_elements hs he hv), (hs.stack .ds).elements_popped_pushed he, rfl⟩
    case if_ => exact ⟨_, exec_of_operation_ok (State.branchIf_of_elements hs he ha), hel, rfl⟩
    case jump => exact ⟨_, exec_of_operation_ok (State.jumpRelative_of_elements hs he), hel, rfl⟩

/-- Settles O29: the loads and stores through the return stack write no field of the data stack. -/
theorem stackPicturesOfTheReturnStack : Obligations.StackPicturesOfTheReturnStack := by
  intro s xs b a hs
  refine ⟨fun he v hv => ?rsFetch, fun he hb => ?rsStore⟩
  case rsFetch =>
    exact ⟨_, exec_of_operation_ok (State.load_of_elements (k := .rs) hs he hv),
      (hs.stack .rs).elements_popped_pushed he, rfl, rfl⟩
  case rsStore =>
    obtain ⟨-, -, -, hel⟩ := (hs.stack .rs).of_elements_pair he
    exact ⟨_, exec_of_operation_ok (State.store_of_elements (k := .rs) hs he hb), hel,
      State.memRead_of_mem_write hs.memory.1 hb rfl rfl, rfl, rfl⟩

/-- Settles O48: construction tests exactly the constraints of R8. -/
theorem constructionRefusesNonConfigurations : Obligations.ConstructionRefusesNonConfigurations :=
  fun _ => ⟨fun h => if_pos h, fun h => if_neg h⟩

end Sys2Proof.Machine
end

section
/-! PROOFS of the family `10_state.md` (spec R22 to R41): the bit image of a cell; what an operation answers when it
raises no fault; the invariant of instruction boundaries under the step, the launch and the run; the offsets. -/

namespace Sys2Proof

/-! ### The bit image of a cell (R22) -/

section
variable {W : Nat} {v : Int}

/-- A cell value modulo `2^W`: itself, or from below zero its two's complement. -/
theorem emod_cellModulus_of_inCellRange (hW : 1 ≤ W) (hv : InCellRange W v) :
    v % cellModulus W = if 0 ≤ v then v else v + cellModulus W := by
  have hmod := cellModulus_eq hW
  obtain ⟨hlo, hhi⟩ := hv
  simp only [minCell, maxCell] at hlo hhi
  split
  · exact Int.emod_eq_of_lt ‹_› (by omega)
  · rw [← Int.add_emod_right, Int.emod_eq_of_lt] <;> omega

theorem bitImage_eq_emod (W : Nat) (v : Int) : (bitImage W v : Int) = v % cellModulus W :=
  Int.toNat_of_nonneg (Int.emod_nonneg v (cellModulus_pos W).ne')

theorem bitImage_lt (W : Nat) (v : Int) : bitImage W v < 2 ^ W := by
  have h := Int.emod_lt_of_pos v (cellModulus_pos W)
  rw [← bitImage_eq_emod, cellModulus] at h
  exact_mod_cast h

/-- `sext_W` undoes the bit image: the half range separates the images of the two signs. -/
theorem sext_bitImage (hW : 1 ≤ W) (hv : InCellRange W v) : sext W (bitImage W v) = v := by
  have himage := (bitImage_eq_emod W v).trans (emod_cellModulus_of_inCellRange hW hv)
  have hmod := cellModulus_eq hW
  obtain ⟨hlo, hhi⟩ := hv
  simp only [minCell, maxCell] at hlo hhi
  simp only [sext, Nat.mod_eq_of_lt (bitImage_lt W v)]
  split at himage <;> split <;> omega

end

/-- Settles O4, from the value of a cell modulo `2^W`. -/
theorem bitImageDeterminesTheCell : Obligations.BitImageDeterminesTheCell := by
  intro W v hW hv
  have hW1 : 1 ≤ W := by omega
  exact ⟨bitImage_lt W v, sext_bitImage hW1 hv,
    (bitImage_eq_emod W v).trans (emod_cellModulus_of_inCellRange hW1 hv)⟩

end Sys2Proof

namespace Sys2Proof.Machine

/-! ### What an operation without a fault answers -/

section
variable {s u : State} {k : StackId}

theorem State.eq_of_load_ok (h : s.load k = .ok u) : ∃ st, u = (s.setStack k st).advance 1 := by
  rcases s.load_cases k with ⟨-, he⟩ | ⟨-, -, he⟩ | ⟨-, -, -, he⟩ | ⟨-, -, -, he⟩ <;> rw [he] at h <;> cases h
  exact ⟨_, rfl⟩

theorem State.eq_of_store_ok (h : s.store k = .ok u) :
    ∃ m st, u = { s.setStack k st with mem := m }.advance 1 := by
  rcases s.store_cases k with ⟨-, he⟩ | ⟨-, -, he⟩ | ⟨-, -, he⟩ <;> rw [he] at h <;> cases h
  exact ⟨_, _, rfl⟩

theorem State.eq_of_pushLiteral_ok (h : s.pushLiteral = .ok u) : ∃ st, u = (s.setStack .ds st).advance 2 := by
  rcases s.pushLiteral_cases with ⟨-, he⟩ | ⟨-, -, he⟩ | ⟨-, -, he⟩ <;> rw [he] at h <;> cases h
  exact ⟨_, rfl⟩

theorem State.eq_of_binary_ok {op : Int → Int → Except Fault Int} (h : s.binary op = .ok u) :
    ∃ st, u = (s.setStack .ds st).advance 1 := by
  rcases s.binary_cases op with ⟨-, he⟩ | ⟨-, _, -, he⟩ | ⟨-, -, he⟩ | ⟨-, -, _, -, he⟩ <;> rw [he] at h <;> cases h
  exact ⟨_, rfl⟩

/-- IF resumes after itself on a non-zero condition and at the target of the scan on zero. -/
theorem State.eq_of_branchIf_ok (h : s.branchIf = .ok u) :
    ∃ st T, u = (s.setStack .ds st).setPc T ∧
      (s.ds.top ≠ 0 ∧ T = s.pc + 1 ∨ s.ds.top = 0 ∧ s.scanThen s.pc = .ok T) := by
  rcases s.branchIf_cases with ⟨-, he⟩ | ⟨-, hc, he⟩ | ⟨-, -, _, -, he⟩ | ⟨-, hc, T, hT, he⟩ <;>
    rw [he] at h <;> cases h
  · exact ⟨_, _, rfl, .inl ⟨hc, rfl⟩⟩
  · exact ⟨_, _, rfl, .inr ⟨hc, hT⟩⟩

theorem State.eq_of_jumpRelative_ok (h : s.jumpRelative = .ok u) :
    ∃ st, u = (s.setStack .ds st).setPc (s.pc + s.ds.top) := by
  rcases s.jumpRelative_cases with ⟨-, he⟩ | ⟨-, he⟩ <;> rw [he] at h <;> cases h
  exact ⟨_, rfl⟩

end

/-- The one stack an instruction may touch (R27, R28); NOOP and THEN touch neither. -/
def stackUsed : Instr → StackId
  | .rsFetch | .rsStore => .rs
  | .noop | .dsFetch | .dsStore | .literal | .dsAdd | .dsSub | .dsMul | .dsDiv | .dsEq | .if_ | .then_ | .jump => .ds

section
variable {s t u : State} {i : Instr}

/-- An operation writes at most the memory, the stack its instruction uses and `pc`. -/
theorem State.operation_frame (h : s.operation i = .ok u) :
    ∃ m st x, u = { s.setStack (stackUsed i) st with mem := m, pc := x } := by
  cases i with
  | noop | then_ =>
    cases h
    exact ⟨_, s.ds, _, rfl⟩
  | dsFetch | rsFetch =>
    obtain ⟨st, rfl⟩ := State.eq_of_load_ok h
    exact ⟨_, st, _, rfl⟩
  | dsStore | rsStore =>
    obtain ⟨m, st, rfl⟩ := State.eq_of_store_ok h
    exact ⟨m, st, _, rfl⟩
  | literal =>
    obtain ⟨st, rfl⟩ := State.eq_of_pushLiteral_ok h
    exact ⟨_, st, _, rfl⟩
  | dsAdd | dsSub | dsMul | dsDiv | dsEq =>
    simp only [State.operation] at h
    obtain ⟨st, rfl⟩ := State.eq_of_binary_ok h
    exact ⟨_, st, _, rfl⟩
  | if_ =>
    obtain ⟨st, T, rfl, -⟩ := State.eq_of_branchIf_ok h
    exact ⟨_, st, T, rfl⟩
  | jump =>
    obtain ⟨st, rfl⟩ := State.eq_of_jumpRelative_ok h
    exact ⟨_, st, _, rfl⟩

theorem State.operation_params (h : s.operation i = .ok u) : u.params = s.params := by
  obtain ⟨m, st, x, rfl⟩ := State.operation_frame h
  simp

theorem State.operation_status (h : s.operation i = .ok u) : u.status = s.status := by
  obtain ⟨m, st, x, rfl⟩ := State.operation_frame h
  simp

theorem State.operation_stack_other {j : StackId} (h : s.operation i = .ok u) (hj : j ≠ stackUsed i) :
    u.stack j = s.stack j := by
  obtain ⟨m, st, x, rfl⟩ := State.operation_frame h
  have hother := s.setStack_stack_other (stackUsed i) st hj
  cases j <;> exact hother

/-- What an instruction answers: the result of its operation, or its fault latched (R97). -/
theorem exec_cases (h : exec i s = .next t) : s.operation i = .ok t ∨ ∃ f, s.operation i = .error f ∧ t = s.raise f :=
  State.commit_cases ((exec_eq_commit s i).symm.trans h)

/-- Settles O32: a fault touches no stack, and an operation only the stack its instruction uses. -/
theorem stacksTouchedByTheirOwnInstructions : Obligations.StacksTouchedByTheirOwnInstructions := by
  intro i s t h
  rcases exec_cases h with hok | ⟨f, -, rfl⟩
  · refine ⟨fun hi => ?ds, fun hf hst => State.operation_stack_other (j := .rs) hok ?rs⟩
    case ds =>
      simp only [List.mem_cons, List.not_mem_nil, or_false] at hi
      rcases hi with rfl | rfl | rfl | rfl
      · cases hok; rfl
      · cases hok; rfl
      · exact State.operation_stack_other (j := .ds) hok (by decide)
      · exact State.operation_stack_other (j := .ds) hok (by decide)
    case rs => cases i <;> simp_all [stackUsed]
  · exact ⟨fun _ => rfl, fun _ _ => rfl⟩

/-! ### The program counter after each instruction (R31) -/

/-- The scan of an IF in bounds: the least THEN above it, or the bounds fault at `M` (R141). -/
theorem State.scanThen_cases {P : Int} (hP : s.InBounds P) :
    (∃ T, s.scanThen P = .ok T ∧ P < T ∧ T < s.params.memSize ∧ s.mem.read T.toNat = s.params.opc.then_ ∧
      ∀ x, P < x → x < T → s.mem.read x.toNat ≠ s.params.opc.then_) ∨
    (s.scanThen P = .error (.addressOutOfBounds s.params.memSize) ∧
      ∀ x, P < x → x < s.params.memSize → s.mem.read x.toNat ≠ s.params.opc.then_) := by
  obtain ⟨h0, hM⟩ := hP
  have hend : P + 1 + ((s.params.memSize - (P + 1)).toNat : Int) = s.params.memSize := by omega
  have hcases := s.scanFrom_cases (s.params.memSize - (P + 1)).toNat (P + 1) (by omega) hend.le
  rwa [hend] at hcases

/-- Every operation but those of LITERAL, IF and JUMP answers `pc = P + 1`. -/
theorem State.operation_pc (h : s.operation i = .ok u) (hl : i ≠ .literal) (hi : i ≠ .if_) (hj : i ≠ .jump) :
    u.pc = s.pc + 1 := by
  cases i with
  | literal => exact absurd rfl hl
  | if_ => exact absurd rfl hi
  | jump => exact absurd rfl hj
  | noop | then_ => cases h; rfl
  | dsFetch | rsFetch =>
    obtain ⟨st, rfl⟩ := State.eq_of_load_ok h
    rfl
  | dsStore | rsStore =>
    obtain ⟨m, st, rfl⟩ := State.eq_of_store_ok h
    rfl
  | dsAdd | dsSub | dsMul | dsDiv | dsEq =>
    simp only [State.operation] at h
    obtain ⟨st, rfl⟩ := State.eq_of_binary_ok h
    rfl

/-- IF on zero resumes at the least THEN above it. -/
theorem State.branchIf_pc_of_zero (hb : s.InBounds s.pc) (h : s.branchIf = .ok u) (hz : s.ds.top = 0) :
    s.pc < u.pc ∧ u.pc < s.params.memSize ∧ s.mem.read u.pc.toNat = s.params.opc.then_ ∧
      ∀ x, s.pc < x → x < u.pc → s.mem.read x.toNat ≠ s.params.opc.then_ := by
  obtain ⟨st, T, rfl, ⟨hnz, -⟩ | ⟨-, hT⟩⟩ := State.eq_of_branchIf_ok h
  · exact absurd hz hnz
  · rcases State.scanThen_cases hb with ⟨T', hT', hleast⟩ | ⟨hf, -⟩
    · obtain rfl : T' = T := by simpa [hT] using hT'.symm
      exact hleast
    · simp [hT] at hf

/-- Settles O34: a fault leaves `pc`, and each operation's answer says what it wrote there. -/
theorem pcAfterEachInstruction : Obligations.PcAfterEachInstruction := by
  intro i s t _ hrun hb h
  rcases exec_cases h with hok | ⟨f, -, rfl⟩
  · refine ⟨fun hst => absurd ((State.operation_status hok).trans hrun) hst,
      fun _ => ⟨State.operation_pc hok, ?literal, ?ifNonzero, ?ifZero, ?jump⟩⟩
    case literal =>
      rintro rfl
      obtain ⟨st, rfl⟩ := State.eq_of_pushLiteral_ok hok
      simp
    case ifNonzero =>
      rintro rfl hnz
      obtain ⟨st, T, rfl, ⟨-, rfl⟩ | ⟨hz, -⟩⟩ := State.eq_of_branchIf_ok hok
      · rfl
      · exact absurd hz hnz
    case ifZero =>
      rintro rfl hz
      exact State.branchIf_pc_of_zero hb hok hz
    case jump =>
      rintro rfl
      obtain ⟨st, rfl⟩ := State.eq_of_jumpRelative_ok hok
      rfl
  · exact ⟨fun _ => rfl, fun hst => by simp at hst⟩

end

/-! ### The parts of the invariant -/

/-- The part of the invariant that speaks of the parameters, the memory and the stacks (R8, R22, R25, R26). -/
def State.DataInv (s : State) : Prop :=
  s.params.WellFormed ∧ s.mem.Inv s.params.width s.params.memSize ∧
    ∀ k, (s.stack k).Inv s.params.width s.params.depth

section
variable {s u : State} {k : StackId} {st : Stack} {a v x : Int} {f : Fault}

theorem State.DataInv.wellFormed (hd : s.DataInv) : s.params.WellFormed := hd.1
theorem State.DataInv.memory (hd : s.DataInv) : s.mem.Inv s.params.width s.params.memSize := hd.2.1
theorem State.DataInv.stack (hd : s.DataInv) (k : StackId) : (s.stack k).Inv s.params.width s.params.depth := hd.2.2 k

theorem State.inv_iff : s.Inv ↔ s.DataInv ∧ s.PcInv ∧ s.statusAgrees = true := by
  constructor
  · rintro ⟨hp, hm, hds, hrs, hpc, hst⟩
    exact ⟨⟨hp, hm, fun | .ds => hds | .rs => hrs⟩, hpc, hst⟩
  · rintro ⟨⟨hp, hm, hk⟩, hpc, hst⟩
    exact ⟨hp, hm, hk .ds, hk .rs, hpc, hst⟩

theorem State.Inv.dataInv (hs : s.Inv) : s.DataInv := (State.inv_iff.mp hs).1

/-- A stack pointer never exceeds the last cell (R25). -/
theorem State.Inv.sp_lt (hs : s.Inv) (k : StackId) : (s.stack k).sp < s.params.depth := by
  obtain ⟨-, ⟨-, hD⟩, -, -⟩ := hs.stack k
  exact hD

theorem State.DataInv.setStack (hd : s.DataInv) (hst : st.Inv s.params.width s.params.depth) :
    (s.setStack k st).DataInv := by
  obtain ⟨hp, hm, hk⟩ := hd
  refine ⟨by simpa using hp, by simpa using hm, fun j => ?_⟩
  simp only [State.setStack_params]
  by_cases hj : j = k
  · subst hj
    simpa using hst
  · rw [State.setStack_stack_other _ _ _ hj]
    exact hk j

theorem State.DataInv.setMem {m : Memory} (hd : s.DataInv) (hm : m.Inv s.params.width s.params.memSize) :
    State.DataInv { s with mem := m } := by
  obtain ⟨hp, -, hk⟩ := hd
  exact ⟨hp, hm, fun | .ds => hk .ds | .rs => hk .rs⟩

/-- A checked write of a reduced value keeps the memory sound. -/
theorem State.DataInv.memory_write (hd : s.DataInv) (ha : s.InBounds a) (v : Int) :
    (s.mem.write a.toNat (wrap s.params.width v)).Inv s.params.width s.params.memSize := by
  obtain ⟨h0, hM⟩ := ha
  exact hd.memory.write (by omega) (wrap_inCellRange _ _)

theorem State.DataInv.setPc (hd : s.DataInv) : (s.setPc x).DataInv := by
  obtain ⟨hp, hm, hk⟩ := hd
  exact ⟨hp, hm, fun | .ds => hk .ds | .rs => hk .rs⟩

/-- An address of memory, and `M` itself, lie in the range of `pc` (R32). -/
theorem State.pcInv_of_le_memSize (hp : s.params.WellFormed) (h0 : 0 ≤ s.pc) (hM : s.pc ≤ s.params.memSize) :
    s.PcInv := by
  have hzero := zero_inCellRange s.params.width
  have hone := one_inCellRange hp.two_le_width
  constructor <;> omega

theorem State.statusAgrees_of_running (hrun : s.status = .running) (hpc : s.pc < s.params.memSize) :
    s.statusAgrees = true := by
  simpa [State.statusAgrees, hrun] using hpc

/-- Latching a fault whose record agrees with the state keeps the invariant (R173). -/
theorem State.Inv.raise (hs : s.Inv) (hf : (s.raise f).statusAgrees = true) : (s.raise f).Inv := by
  obtain ⟨hp, hm, hds, hrs, hpc, -⟩ := hs
  exact ⟨hp, hm, hds, hrs, hpc, hf⟩

/-- After a committed instruction the end test restores the agreement of `status` with `pc` (R103). -/
theorem State.DataInv.endTest (hd : u.DataInv) (hpc : u.PcInv) (hrun : u.status = .running) : u.endTest.Inv := by
  obtain ⟨hp, hm, hk⟩ := hd
  by_cases hM : (u.params.memSize : Int) ≤ u.pc
  · rw [State.endTest_of_le hrun hM]
    exact ⟨hp, hm, hk .ds, hk .rs, hpc, by simp [State.statusAgrees, hM]⟩
  · rw [State.endTest_of_lt (not_le.mp hM)]
    exact ⟨hp, hm, hk .ds, hk .rs, hpc, State.statusAgrees_of_running hrun (not_le.mp hM)⟩

/-! ### When the record of a fault agrees with the state -/

theorem State.raise_unknownOpcode_agrees (hb : s.InBounds s.pc)
    (hd : decode s.params.opc (s.mem.read s.pc.toNat) = none) :
    (s.raise (.unknownOpcode (s.mem.read s.pc.toNat) s.pc)).statusAgrees = true := by
  simp [State.statusAgrees, hb, hd]

theorem State.raise_addressOutOfBounds_agrees (hpc : s.pc < s.params.memSize) (ha : ¬ s.InBounds a) :
    (s.raise (.addressOutOfBounds a)).statusAgrees = true := by
  have ha' : ¬ (s.raise (.addressOutOfBounds a)).InBounds a := ha
  simp [State.statusAgrees, hpc, ha']

theorem State.raise_stackOverflow_agrees (hpc : s.pc < s.params.memSize)
    (hsp : s.ds.sp = (s.params.depth : Int) - 1) : (s.raise (.stackOverflow .ds)).statusAgrees = true := by
  simp [State.statusAgrees, hpc, hsp]

theorem State.raise_stackUnderflow_agrees (hpc : s.pc < s.params.memSize) (hsp : (s.stack k).sp < 1) :
    (s.raise (.stackUnderflow k)).statusAgrees = true := by
  have hsp' : ((s.raise (.stackUnderflow k)).stack k).sp < 1 := by cases k <;> exact hsp
  simp [State.statusAgrees, hpc, hsp']

theorem State.raise_divisionByZero_agrees (hpc : s.pc < s.params.memSize) (hsp : 1 ≤ s.ds.sp) (hz : s.ds.top = 0) :
    (s.raise .divisionByZero).statusAgrees = true := by
  simp [State.statusAgrees, hpc, hsp, hz]

end

/-! ### Every operation keeps the invariant -/

/-- What the operation of an instruction begun in `s` must answer for the step to keep the invariant: sound data and
`pc` in its range, or a fault that agrees with `s`. -/
def State.Keeps (s : State) : Except Fault State → Prop
  | .ok u => u.DataInv ∧ u.PcInv
  | .error f => (s.raise f).statusAgrees = true

section
variable {s : State} (hs : s.Inv) (hb : s.InBounds s.pc)
include hs hb

/-- The next cell after an opcode lies in the range of `pc`. -/
theorem State.Inv.keeps_advance {u : State} (hd : u.DataInv) (hparams : u.params = s.params) (hpc : u.pc = s.pc) :
    s.Keeps (.ok (u.advance 1)) := by
  obtain ⟨h0, hM⟩ := hb
  refine ⟨hd.setPc, State.pcInv_of_le_memSize ?_ ?_ ?_⟩ <;>
    simp only [State.advance_params, State.advance_pc, hparams, hpc]
  · exact hs.wellFormed
  · omega
  · omega

theorem State.Inv.keeps_load (k : StackId) : s.Keeps (s.load k) := by
  have hD := hs.sp_lt k
  rcases s.load_cases k with ⟨hu, he⟩ | ⟨-, hnb, he⟩ | ⟨-, -, ho, -⟩ | ⟨h0, -, -, he⟩
  · rw [he]
    exact State.raise_stackUnderflow_agrees hb.2 (by omega)
  · rw [he]
    exact State.raise_addressOutOfBounds_agrees hb.2 hnb
  · omega
  · rw [he, ← Stack.popped_pushed]
    have hst := ((hs.stack k).popped h0).pushed (wrap_inCellRange _ (s.mem.read (s.stack k).top.toNat)) (by simp; omega)
    exact hs.keeps_advance hb (hs.dataInv.setStack hst) (by simp) (by simp)

theorem State.Inv.keeps_store (k : StackId) : s.Keeps (s.store k) := by
  rcases s.store_cases k with ⟨hu, he⟩ | ⟨-, hnb, he⟩ | ⟨h1, hbt, he⟩
  · rw [he]
    exact State.raise_stackUnderflow_agrees hb.2 hu
  · rw [he]
    exact State.raise_addressOutOfBounds_agrees hb.2 hnb
  · rw [he]
    have hst := ((hs.stack k).popped (by omega)).popped (by simp; omega)
    have hm := hs.dataInv.memory_write hbt ((s.stack k).cell ((s.stack k).sp - 1))
    exact hs.keeps_advance hb ((hs.dataInv.setStack hst).setMem (by simpa using hm)) (by simp) (by simp)

theorem State.Inv.keeps_pushLiteral : s.Keeps s.pushLiteral := by
  have hds : s.ds.Inv s.params.width s.params.depth := hs.stack .ds
  have hD : s.ds.sp < s.params.depth := hs.sp_lt .ds
  rcases s.pushLiteral_cases with ⟨hnb, he⟩ | ⟨-, ho, he⟩ | ⟨⟨h0, hM⟩, hroom, he⟩
  · rw [he]
    exact State.raise_addressOutOfBounds_agrees hb.2 hnb
  · rw [he]
    exact State.raise_stackOverflow_agrees hb.2 (by omega)
  · rw [he]
    have hst := hds.pushed (wrap_inCellRange _ (s.mem.read (s.pc + 1).toNat)) hroom
    refine ⟨(hs.dataInv.setStack hst).setPc, State.pcInv_of_le_memSize ?_ ?_ ?_⟩ <;> simp
    · exact hs.wellFormed
    · omega
    · omega

/-- A two-operand instruction, where its one fault is a zero divisor. -/
theorem State.Inv.keeps_binary {op : Int → Int → Except Fault Int}
    (hop : ∀ b a f, op b a = .error f → f = .divisionByZero ∧ a = 0) : s.Keeps (s.binary op) := by
  have hds : s.ds.Inv s.params.width s.params.depth := hs.stack .ds
  have hD : s.ds.sp < s.params.depth := hs.sp_lt .ds
  rcases s.binary_cases op with ⟨hu, he⟩ | ⟨h1, f, hf, he⟩ | ⟨-, ho, -⟩ | ⟨h1, -, r, -, he⟩
  · rw [he]
    exact State.raise_stackUnderflow_agrees hb.2 hu
  · obtain ⟨rfl, hz⟩ := hop _ _ _ hf
    rw [he]
    exact State.raise_divisionByZero_agrees hb.2 h1 hz
  · omega
  · rw [he, ← Stack.popped_popped_pushed]
    have hst := ((hds.popped (by omega)).popped (by simp; omega)).pushed (wrap_inCellRange _ r) (by simp; omega)
    exact hs.keeps_advance hb (hs.dataInv.setStack hst) (by simp) (by simp)

theorem State.Inv.keeps_branchIf : s.Keeps s.branchIf := by
  have hpopped : 0 ≤ s.ds.sp → (s.setStack .ds s.ds.popped).DataInv := fun h0 =>
    hs.dataInv.setStack ((hs.stack .ds).popped h0)
  rcases s.branchIf_cases with ⟨hu, he⟩ | ⟨h0, -, he⟩ | ⟨-, -, f, hf, he⟩ | ⟨h0, -, T, hT, he⟩
  · rw [he]
    exact State.raise_stackUnderflow_agrees (k := .ds) hb.2 (by simp; omega)
  · rw [he]
    exact hs.keeps_advance hb (hpopped h0) rfl rfl
  · rcases State.scanThen_cases hb with ⟨T, hT, -⟩ | ⟨hf', -⟩
    · simp [hT] at hf
    · obtain rfl : f = .addressOutOfBounds s.params.memSize := by simpa [hf'] using hf.symm
      rw [he]
      exact State.raise_addressOutOfBounds_agrees hb.2 fun hM => lt_irrefl _ hM.2
  · rcases State.scanThen_cases hb with ⟨T', hT', hlo, hhi, -⟩ | ⟨hf, -⟩
    · obtain rfl : T' = T := by simpa [hT] using hT'.symm
      rw [he]
      exact ⟨(hpopped h0).setPc, State.pcInv_of_le_memSize hs.wellFormed (hb.1.trans hlo.le) hhi.le⟩
    · simp [hT] at hf

/-- JUMP from an address of memory by a cell value stays in the range of `pc`: this is what R32's bounds are. -/
theorem State.Inv.keeps_jumpRelative : s.Keeps s.jumpRelative := by
  rcases s.jumpRelative_cases with ⟨hu, he⟩ | ⟨h0, he⟩
  · rw [he]
    exact State.raise_stackUnderflow_agrees (k := .ds) hb.2 (by simp; omega)
  · rw [he]
    have htop : InCellRange s.params.width s.ds.top := (hs.stack .ds).cell_inCellRange _
    obtain ⟨hpc0, hpcM⟩ := hb
    refine ⟨(hs.dataInv.setStack ((hs.stack .ds).popped h0)).setPc, ?_, ?_⟩ <;> simp <;> omega

theorem State.Inv.keeps_operation (i : Instr) : s.Keeps (s.operation i) := by
  cases i with
  | noop | then_ => exact hs.keeps_advance hb hs.dataInv rfl rfl
  | dsFetch | rsFetch => exact hs.keeps_load hb _
  | dsStore | rsStore => exact hs.keeps_store hb _
  | literal => exact hs.keeps_pushLiteral hb
  | dsAdd | dsSub | dsMul | dsEq =>
    simp only [State.operation]
    exact hs.keeps_binary hb fun _ _ _ hf => by cases hf
  | dsDiv =>
    refine hs.keeps_binary hb fun b a f hf => ?_
    unfold quotient at hf
    split at hf <;> cases hf
    exact ⟨rfl, ‹_›⟩
  | if_ => exact hs.keeps_branchIf hb
  | jump => exact hs.keeps_jumpRelative hb

end

section
variable {s t : State}

/-- A Running state that meets the invariant has `pc < M` (R108). -/
theorem State.Inv.pc_lt (hs : s.Inv) (hrun : s.status = .running) : s.pc < s.params.memSize := by
  obtain ⟨-, -, hst⟩ := State.inv_iff.mp hs
  simpa [State.statusAgrees, hrun] using hst

/-- Settles O47: each outcome of a step is the state itself, a fault that agrees with it, or sound data after the end
test. -/
theorem stepKeepsTheInvariant : Obligations.StepKeepsTheInvariant := by
  intro s t hs h
  rcases step_cases h with ⟨-, rfl⟩ | ⟨hrun, hnb, rfl⟩ | ⟨-, hb, hd, rfl⟩ | ⟨-, hb, i, f, -, ho, rfl⟩ |
    ⟨hrun, hb, i, u, -, ho, rfl⟩
  · exact hs
  · exact hs.raise (State.raise_addressOutOfBounds_agrees (hs.pc_lt hrun) hnb)
  · exact hs.raise (State.raise_unknownOpcode_agrees hb hd)
  · have hkeeps := hs.keeps_operation hb i
    rw [ho] at hkeeps
    exact hs.raise hkeeps
  · have hkeeps := hs.keeps_operation hb i
    rw [ho] at hkeeps
    obtain ⟨hdata, hpc⟩ := hkeeps
    exact hdata.endTest hpc ((State.operation_status ho).trans hrun)

/-! ### Reset, launch and run -/

/-- No step changes the parameters (R6). -/
theorem step_params (h : step s = .next t) : t.params = s.params := by
  rcases step_cases h with ⟨-, rfl⟩ | ⟨-, -, rfl⟩ | ⟨-, -, -, rfl⟩ | ⟨-, -, i, f, -, -, rfl⟩ |
    ⟨-, -, i, u, -, ho, rfl⟩
  · rfl
  · rfl
  · rfl
  · rfl
  · rw [State.endTest_params, State.operation_params ho]

/-- The reset state of every configuration has sound data. -/
theorem State.resetWith_dataInv {p : Params} (hp : p.WellFormed) : (State.resetWith p).DataInv :=
  ⟨hp, Memory.Inv.nil, fun k => by cases k <;> exact Stack.Inv.empty hp.one_le_depth⟩

/-- Sound data with `pc` where reset puts it and `status` Running: the invariant. -/
theorem State.DataInv.inv_of_pc_eq_programOffset (hd : s.DataInv) (hpc : s.pc = s.params.programOffset)
    (hrun : s.status = .running) : s.Inv := by
  obtain ⟨h0, hM⟩ := hd.wellFormed.programOffset
  rw [← hpc] at h0 hM
  exact State.inv_iff.mpr ⟨hd, State.pcInv_of_le_memSize hd.wellFormed h0 hM.le, State.statusAgrees_of_running hrun hM⟩

theorem State.resetWith_inv {p : Params} (hp : p.WellFormed) : (State.resetWith p).Inv :=
  (State.resetWith_dataInv hp).inv_of_pc_eq_programOffset rfl rfl

/-- Settles O46: the default parameters are a configuration. -/
theorem resetStateMeetsTheInvariant : Obligations.ResetStateMeetsTheInvariant :=
  State.resetWith_inv (by decide)

/-- Every cell of a flushed stack reads 0. -/
@[simp] theorem Stack.empty_cell (D : Nat) (i : Int) : (Stack.empty D).cell i = 0 := by
  simp [Stack.empty, Stack.cell, List.getD_eq_getElem?_getD, List.getElem?_getD_replicate_default_eq]

/-- Settles O45: HostReset is the construction of the engine with the same parameters. -/
theorem hostResetGivesEveryPieceItsResetValue : Obligations.HostResetGivesEveryPieceItsResetValue := by
  intro s
  have hstack : ∀ k, (State.resetWith s.params).stack k = Stack.empty s.params.depth := fun k => by cases k <;> rfl
  rw [hostReset_eq]
  refine ⟨fun a ha => State.memRead_ok ha, fun k i _ _ => ?cell, fun k => ?pointer, rfl, rfl, rfl, rfl⟩
  case cell => rw [hstack, Stack.empty_cell]
  case pointer =>
    rw [hstack]
    exact ⟨List.length_replicate, rfl⟩

/-- A launch transaction writes memory or a stack and nothing else (R159). -/
theorem LaunchTransaction.perform_frame (s : State) (x : LaunchTransaction) :
    (x.perform s).params = s.params ∧ (x.perform s).pc = s.pc ∧ (x.perform s).status = s.status := by
  cases x with
  | load a v =>
    by_cases hb : s.InBounds a
    · simp [LaunchTransaction.perform, hostLoad_ok hb]
    · simp [LaunchTransaction.perform, hostLoad_error hb]
  | preload k v =>
    by_cases hroom : (s.stack k).sp < (s.params.depth : Int) - 1
    · simp [LaunchTransaction.perform, hostPreload_ok hroom]
    · simp [LaunchTransaction.perform, hostPreload_error (not_lt.mp hroom)]

theorem LaunchTransaction.perform_dataInv (hd : s.DataInv) (x : LaunchTransaction) : (x.perform s).DataInv := by
  cases x with
  | load a v =>
    by_cases hb : s.InBounds a
    · simpa only [LaunchTransaction.perform, hostLoad_ok hb] using
        hd.setMem (hd.memory_write hb v)
    · simpa only [LaunchTransaction.perform, hostLoad_error hb] using hd
  | preload k v =>
    by_cases hroom : (s.stack k).sp < (s.params.depth : Int) - 1
    · simpa only [LaunchTransaction.perform, hostPreload_ok hroom] using
        hd.setStack ((hd.stack k).pushed (wrap_inCellRange _ v) hroom)
    · simpa only [LaunchTransaction.perform, hostPreload_error (not_lt.mp hroom)] using hd

/-- A launch leaves the parameters, `pc` and `status` as reset does. -/
theorem launch_frame (s : State) (xs : List LaunchTransaction) :
    (launch s xs).params = s.params ∧ (launch s xs).pc = s.params.programOffset ∧ (launch s xs).status = .running := by
  unfold launch
  refine List.foldlRecOn (motive := fun u =>
    u.params = s.params ∧ u.pc = s.params.programOffset ∧ u.status = .running)
    xs LaunchTransaction.perform (b := hostReset s) ⟨rfl, rfl, rfl⟩ fun u ⟨hparams, hpc, hrun⟩ x _ => ?_
  obtain ⟨hparams', hpc', hrun'⟩ := LaunchTransaction.perform_frame u x
  exact ⟨hparams'.trans hparams, hpc'.trans hpc, hrun'.trans hrun⟩

theorem launch_inv (hp : s.params.WellFormed) (xs : List LaunchTransaction) : (launch s xs).Inv := by
  obtain ⟨hparams, hpc, hrun⟩ := launch_frame s xs
  have hd : (launch s xs).DataInv := List.foldlRecOn xs LaunchTransaction.perform (State.resetWith_dataInv hp)
    fun _ hd x _ => LaunchTransaction.perform_dataInv hd x
  exact hd.inv_of_pc_eq_programOffset (hpc.trans (by rw [hparams])) hrun

/-- What every step keeps holds after every run. -/
theorem hostRun_induction {P : State → Prop} (hstep : ∀ s t, P s → step s = .next t → P t) (n : Nat) :
    ∀ s, P s → P (hostRun n s).1 := by
  have hhost : ∀ s, P s → P (hostStep s).1 := fun s hs => by
    unfold hostStep
    split
    · exact hstep s _ hs ‹_›
    · exact hs
    · exact hs
  induction n with
  | zero => exact fun s hs => hs
  | succ n ih =>
    intro s hs
    unfold hostRun
    split
    · exact hs
    · exact ih _ (hhost s hs)

/-- Settles O50: the launch state meets the invariant and every step keeps it, with the parameters. -/
theorem everyRunFromALaunchStateIsSound : Obligations.EveryRunFromALaunchStateIsSound := by
  intro s xs n hp
  refine hostRun_induction (P := fun u => u.Inv ∧ u.params = s.params) (fun u t ⟨hu, hparams⟩ h => ?_) n _
    ⟨launch_inv hp xs, (launch_frame s xs).1⟩
  exact ⟨stepKeepsTheInvariant u t hu h, (step_params h).trans hparams⟩

end

/-! ### The offsets (R41) -/

section
variable (s : State) (program tib dictionary : Int) (k : StackId)

@[simp] theorem State.withOffsets_pc : (s.withOffsets program tib dictionary).pc = s.pc := rfl
@[simp] theorem State.withOffsets_status : (s.withOffsets program tib dictionary).status = s.status := rfl

theorem State.withOffsets_stack_sp : ((s.withOffsets program tib dictionary).stack k).sp = (s.stack k).sp := by
  cases k <;> rfl

@[simp] theorem State.memRead_withOffsets (a : Int) :
    (s.withOffsets program tib dictionary).memRead a = s.memRead a := rfl

@[simp] theorem State.fetchDecode_withOffsets :
    (s.withOffsets program tib dictionary).fetchDecode = s.fetchDecode := rfl

@[simp] theorem State.setPc_withOffsets (x : Int) :
    (s.withOffsets program tib dictionary).setPc x = (s.setPc x).withOffsets program tib dictionary := rfl

@[simp] theorem State.advance_withOffsets (n : Int) :
    (s.withOffsets program tib dictionary).advance n = (s.advance n).withOffsets program tib dictionary := rfl

@[simp] theorem State.memWrite_withOffsets (a v : Int) : (s.withOffsets program tib dictionary).memWrite a v =
    (·.withOffsets program tib dictionary) <$> s.memWrite a v := by
  by_cases hb : s.InBounds a
  · rw [State.memWrite_ok hb]
    exact State.memWrite_ok hb
  · rw [State.memWrite_error hb]
    exact State.memWrite_error hb

@[simp] theorem State.push_withOffsets (v : Int) : (s.withOffsets program tib dictionary).push k v =
    (·.withOffsets program tib dictionary) <$> s.push k v := by
  have hsp := s.withOffsets_stack_sp program tib dictionary k
  by_cases hfull : (s.params.depth : Int) - 1 ≤ (s.stack k).sp
  · rw [State.push_error hfull]
    exact State.push_error (hsp.symm ▸ hfull)
  · rw [State.push_ok (not_le.mp hfull), State.push_ok (hsp.symm ▸ not_le.mp hfull)]
    cases k <;> rfl

@[simp] theorem State.pop_withOffsets : (s.withOffsets program tib dictionary).pop k =
    (fun r => (r.1, r.2.withOffsets program tib dictionary)) <$> s.pop k := by
  have hsp := s.withOffsets_stack_sp program tib dictionary k
  by_cases hempty : (s.stack k).sp < 0
  · rw [State.pop_error hempty]
    exact State.pop_error (hsp.symm ▸ hempty)
  · rw [State.pop_ok (not_lt.mp hempty), State.pop_ok (hsp.symm ▸ not_lt.mp hempty)]
    cases k <;> rfl

@[simp] theorem State.popTwo_withOffsets : (s.withOffsets program tib dictionary).popTwo k =
    (fun r => (r.1, r.2.1, r.2.2.withOffsets program tib dictionary)) <$> s.popTwo k := by
  simp [State.popTwo]

@[simp] theorem State.scanThen_withOffsets (P : Int) :
    (s.withOffsets program tib dictionary).scanThen P = s.scanThen P := by
  have hloop : ∀ fuel a, (s.withOffsets program tib dictionary).scanFrom a fuel = s.scanFrom a fuel := by
    intro fuel
    induction fuel with
    | zero => exact fun _ => rfl
    | succ n ih =>
      intro a
      simp only [State.scanFrom, State.memRead_withOffsets, ih]
      rfl
  exact hloop _ _

/-! Each shared operation is a sequence of primitives that commute with the change. -/

theorem State.load_withOffsets : (s.withOffsets program tib dictionary).load k =
    (·.withOffsets program tib dictionary) <$> s.load k := by
  simp [State.load]

theorem State.store_withOffsets : (s.withOffsets program tib dictionary).store k =
    (·.withOffsets program tib dictionary) <$> s.store k := by
  simp [State.store]

theorem State.pushLiteral_withOffsets : (s.withOffsets program tib dictionary).pushLiteral =
    (·.withOffsets program tib dictionary) <$> s.pushLiteral := by
  simp [State.pushLiteral, State.literalOperand]

theorem State.binary_withOffsets (op : Int → Int → Except Fault Int) :
    (s.withOffsets program tib dictionary).binary op = (·.withOffsets program tib dictionary) <$> s.binary op := by
  simp [State.binary]

theorem State.branchIf_withOffsets : (s.withOffsets program tib dictionary).branchIf =
    (·.withOffsets program tib dictionary) <$> s.branchIf := by
  simp only [State.branchIf, State.pop_withOffsets, bind_map_left, map_bind]
  congr 1
  funext r
  split <;> simp

theorem State.jumpRelative_withOffsets : (s.withOffsets program tib dictionary).jumpRelative =
    (·.withOffsets program tib dictionary) <$> s.jumpRelative := by
  simp [State.jumpRelative]

theorem State.operation_withOffsets (i : Instr) : (s.withOffsets program tib dictionary).operation i =
    (·.withOffsets program tib dictionary) <$> s.operation i := by
  cases i with
  | noop | then_ => rfl
  | dsFetch | rsFetch => exact s.load_withOffsets ..
  | dsStore | rsStore => exact s.store_withOffsets ..
  | literal => exact s.pushLiteral_withOffsets ..
  | dsAdd | dsSub | dsMul | dsDiv | dsEq =>
    simp only [State.operation]
    exact s.binary_withOffsets ..
  | if_ => exact s.branchIf_withOffsets ..
  | jump => exact s.jumpRelative_withOffsets ..

theorem State.endTest_withOffsets : (s.withOffsets program tib dictionary).endTest =
    s.endTest.withOffsets program tib dictionary := by
  cases hst : s.status with
  | terminated r =>
    rw [State.endTest_of_terminated hst]
    exact State.endTest_of_terminated hst
  | running =>
    by_cases hM : (s.params.memSize : Int) ≤ s.pc
    · rw [State.endTest_of_le hst hM]
      exact State.endTest_of_le hst hM
    · rw [State.endTest_of_lt (not_le.mp hM)]
      exact State.endTest_of_lt (not_le.mp hM)

theorem step_withOffsets {s t : State} (h : step s = .next t) :
    step (s.withOffsets program tib dictionary) = .next (t.withOffsets program tib dictionary) := by
  unfold step at h ⊢
  rw [State.withOffsets_status, State.fetchDecode_withOffsets]
  cases hst : s.status with
  | terminated r =>
    rw [hst] at h
    cases h
    rfl
  | running =>
    rw [hst] at h
    cases hd : s.fetchDecode with
    | error f =>
      rw [hd] at h
      cases h
      rfl
    | ok i =>
      simp only [hd, exec_eq_commit, State.operation_withOffsets] at h ⊢
      cases ho : s.operation i with
      | error f =>
        rw [ho] at h
        cases h
        rfl
      | ok u =>
        rw [ho] at h
        cases h
        exact congrArg _ (State.endTest_withOffsets ..)

end

/-- Settles O44: reset alone reads `PROGRAM_OFFSET`, and a step commutes with a change of the offsets. -/
theorem offsetsAreReadOnlyByReset : Obligations.OffsetsAreReadOnlyByReset :=
  fun _ _ program tib dictionary => ⟨step_withOffsets program tib dictionary, rfl⟩

end Sys2Proof.Machine
end

section
/-! PROOFS of the family `20_memory.md` (spec R51, R56, R60, R61): reads after one cell of memory was written, what a
store of a sound state does, and the step whose fetch and operation raise no fault. -/

namespace Sys2Proof

/-- In a map of distinct values each code decodes to its own instruction (R72, R75). -/
theorem decode_code_self {m : OpcodeMap} (hm : m.values.Nodup) (i : Instr) : decode m (m.code i) = some i := by
  cases h : decode m (m.code i) with
  | none => exact absurd rfl (decode_eq_none h i)
  | some j => rw [OpcodeMap.code_injective hm (decode_code h)]

end Sys2Proof

namespace Sys2Proof.Machine

section
variable {s t : State} {i : Instr} {k : StackId} {a b v : Int}

/-! ### Reads after a write (R56) -/

/-- A write of the cell at one address of memory is seen at no other address, in bounds or not. -/
theorem State.memRead_of_mem_write_other (ha : s.InBounds a) (hba : b ≠ a) (hparams : t.params = s.params)
    (hmem : t.mem = s.mem.write a.toNat v) : t.memRead b = s.memRead b := by
  by_cases hb : s.InBounds b
  · have hne : b.toNat ≠ a.toNat := by omega
    have hb' : t.InBounds b := by simpa only [State.InBounds, hparams] using hb
    rw [State.memRead_ok hb, State.memRead_ok hb', hmem, Memory.read_write_other _ hne]
  · have hb' : ¬ t.InBounds b := by simpa only [State.InBounds, hparams] using hb
    rw [State.memRead_error hb, State.memRead_error hb']

/-! ### Stores -/

/-- Two pops leave every cell below the two operands. -/
theorem Stack.popped_popped_cell_of_lt {st : Stack} {j : Int} (hj : j < st.sp - 1) (h1 : 1 ≤ st.sp) :
    st.popped.popped.cell j = st.cell j := by
  rw [Stack.popped_cell (by simp; omega) (by simp; omega), Stack.popped_cell (by omega) (by omega)]

/-- A store of a sound state with both operands and its address in bounds writes the second operand unreduced. -/
theorem State.Inv.store_ok (hs : s.Inv) (h1 : 1 ≤ (s.stack k).sp) (hb : s.InBounds (s.stack k).top) :
    s.store k = .ok ({ s.setStack k (s.stack k).popped.popped with
      mem := s.mem.write (s.stack k).top.toNat ((s.stack k).cell ((s.stack k).sp - 1)) }.advance 1) := by
  rcases s.store_cases k with ⟨hu, -⟩ | ⟨-, hnb, -⟩ | ⟨-, -, hok⟩
  · omega
  · exact absurd hb hnb
  · rw [hok, hs.wrap_cell]

/-- A store that lacks an operand or whose address is out of bounds raises a fault. -/
theorem State.store_error (h : (s.stack k).sp < 1 ∨ ¬ s.InBounds (s.stack k).top) : ∃ f, s.store k = .error f := by
  rcases s.store_cases k with ⟨-, he⟩ | ⟨-, -, he⟩ | ⟨h1, hb, -⟩
  · exact ⟨_, he⟩
  · exact ⟨_, he⟩
  · exact absurd h (by omega)

/-- What a store instruction changes and leaves, for the stack `k` it pops: every other address, the cells below the two
operands, the addressed cell, and everything when it faults. -/
theorem State.Inv.exec_store_frame (hs : s.Inv) (hi : s.operation i = s.store k) (h : exec i s = .next t) :
    (∀ b, b ≠ (s.stack k).top → t.memRead b = s.memRead b) ∧
    (∀ j, j < (s.stack k).sp - 1 → (t.stack k).cell j = (s.stack k).cell j) ∧
    (1 ≤ (s.stack k).sp → s.InBounds (s.stack k).top →
      t.memRead (s.stack k).top = .ok ((s.stack k).cell ((s.stack k).sp - 1))) ∧
    ((s.stack k).sp < 1 ∨ ¬ s.InBounds (s.stack k).top →
      (∀ b, t.memRead b = s.memRead b) ∧ t.stack k = s.stack k) := by
  rw [exec_eq_commit, hi] at h
  by_cases hfault : (s.stack k).sp < 1 ∨ ¬ s.InBounds (s.stack k).top
  · obtain ⟨f, hf⟩ := State.store_error hfault
    rw [hf] at h
    cases h
    have hstack : (s.raise f).stack k = s.stack k := by cases k <;> rfl
    exact ⟨fun _ _ => rfl, fun _ _ => by rw [hstack], fun h1 hb => absurd hfault (by omega),
      fun _ => ⟨fun _ => rfl, hstack⟩⟩
  · obtain ⟨h1, hb⟩ : 1 ≤ (s.stack k).sp ∧ s.InBounds (s.stack k).top := by omega
    rw [hs.store_ok h1 hb] at h
    cases h
    refine ⟨fun b hne => State.memRead_of_mem_write_other hb hne (by simp) rfl, fun j hj => ?below,
      fun _ _ => State.memRead_of_mem_write hs.memory.1 hb (by simp) rfl, fun hf => absurd hf hfault⟩
    case below =>
      rw [← Stack.popped_popped_cell_of_lt hj h1]
      cases k <;> rfl

/-! ### The step without a fault -/

/-- The fetch of the code of `i` decodes to `i`. -/
theorem State.fetchDecode_of_memRead_code (hp : s.params.WellFormed) (h : s.memRead s.pc = .ok (s.params.opc.code i)) :
    s.fetchDecode = .ok i := by
  simp [State.fetchDecode, h, decode_code_self hp.nodup]

/-- A Running engine whose fetch and operation raise no fault commits the operation and makes the end test (R100). -/
theorem step_of_operation_ok (hrun : s.status = .running) (hf : s.fetchDecode = .ok i) (ho : s.operation i = .ok t) :
    step s = .next t.endTest := by
  simp only [step, hrun, hf, exec_of_operation_ok ho, afterExec]

end

/-! ### The obligations -/

/-- Settles O8: the bounds check decides both accesses, and a write is seen at its own address alone. -/
theorem memoryAccessIsCheckedAndChangesOneCell : Obligations.MemoryAccessIsCheckedAndChangesOneCell := by
  intro s a v hmem
  refine ⟨fun hout => ?outside, fun h0 hM => ?inside⟩
  case outside =>
    have hnb : ¬ s.InBounds a := by omega
    exact ⟨State.memRead_error hnb, State.memWrite_error hnb⟩
  case inside =>
    have hb : s.InBounds a := ⟨h0, hM⟩
    exact ⟨State.memRead_ok hb, _, State.memWrite_ok hb, State.memRead_of_mem_write hmem.1 hb rfl rfl,
      fun b hba => State.memRead_of_mem_write_other hb hba rfl rfl, rfl⟩

/-- Settles O31: the two stores are one operation on two stacks, and neither uses the other's stack. -/
theorem storeChangesOnlyTheAddressedCell : Obligations.StoreChangesOnlyTheAddressedCell := by
  intro s t a hs
  refine ⟨fun h ha => ?dsStore, fun h ha => ?rsStore⟩
  case dsStore =>
    subst ha
    obtain ⟨hother, hbelow, haddressed, hfault⟩ := hs.exec_store_frame (k := .ds) rfl h
    have hrs := (stacksTouchedByTheirOwnInstructions .dsStore s t h).2 (by decide) (by decide)
    exact ⟨hother, hrs, hbelow, haddressed, hfault⟩
  case rsStore =>
    subst ha
    obtain ⟨hother, hbelow, haddressed, hfault⟩ := hs.exec_store_frame (k := .rs) rfl h
    have hds := (stacksTouchedByTheirOwnInstructions .rsStore s t h).1 (by decide)
    exact ⟨hother, hds, hbelow, haddressed, hfault⟩

/-- Settles O43: the store leaves the code of `i` at `P + 1`, where the next fetch reads it. -/
theorem storeIsSeenByTheNextFetch : Obligations.StoreIsSeenByTheNextFetch := by
  intro s i hs hrun hb hop h1 htop hM hcell
  have hp := hs.wellFormed
  have hfetch : s.fetchDecode = .ok .dsStore :=
    State.fetchDecode_of_memRead_code hp ((State.memRead_ok hb).trans (congrArg _ hop))
  have hb' : s.InBounds (s.pc + 1) := by omega
  have hstore := hs.store_ok (k := .ds) h1 (htop.symm ▸ hb')
  simp only [State.stack_ds, htop, hcell] at hstore
  have hstep := step_of_operation_ok hrun hfetch hstore
  rw [State.endTest_of_lt hM] at hstep
  exact ⟨_, hstep, rfl, hrun,
    State.fetchDecode_of_memRead_code hp (State.memRead_of_mem_write hs.memory.1 hb' rfl rfl)⟩

end Sys2Proof.Machine
end

section
/-! PROOFS of the family `30_encoding.md` (spec R70 to R84): the decoder on a cell and on an image, the two formats of a
whole instruction, and what the loads of an image leave in memory. -/

namespace Sys2Proof

section
variable {m : OpcodeMap} {p : Params} {c : Int} {i : Instr} {code : Code} {cells rest : List Int} {W : Nat}

/-! ### The decoder on one cell (R72, R76) -/

theorem decode_eq_some_iff (hm : m.values.Nodup) : decode m c = some i ↔ c = m.code i :=
  ⟨fun h => (decode_code h).symm, fun h => h ▸ decode_code_self hm i⟩

/-- The decoder refuses exactly the cells outside the map. -/
theorem decode_eq_none_iff : decode m c = none ↔ c ∉ m.values := by
  rw [← m.map_code_all, decode, List.find?_eq_none]
  simp only [decide_eq_true_eq, List.mem_map, not_exists, not_and]

/-! ### Whole instructions: their two formats and the decoder on an image (R70, R73) -/

/-- The formats of R70: LITERAL with an operand cell, any other instruction alone. -/
theorem Code.formatOk_iff :
    code.FormatOk ↔ (∃ v, code = ⟨.literal, some v⟩) ∨ ∃ i, i ≠ .literal ∧ code = ⟨i, none⟩ := by
  obtain ⟨i, _ | v⟩ := code <;> simp [Code.FormatOk]

theorem decodeCode_of_literal (h : decode m c = some .literal) (v : Int) :
    decodeCode m (c :: v :: rest) = some (⟨.literal, some v⟩, rest) := by
  simp only [decodeCode, h]

theorem decodeCode_of_ne_literal (h : decode m c = some i) (hi : i ≠ .literal) :
    decodeCode m (c :: rest) = some (⟨i, none⟩, rest) := by
  simp only [decodeCode, h]

/-- What the decoder can have read when it answers a whole instruction: one case for each format. -/
theorem decodeCode_cases (h : decodeCode m cells = some (code, rest)) :
    (∃ c v, decode m c = some .literal ∧ code = ⟨.literal, some v⟩ ∧ cells = c :: v :: rest) ∨
    ∃ c i, decode m c = some i ∧ i ≠ .literal ∧ code = ⟨i, none⟩ ∧ cells = c :: rest := by
  cases cells with
  | nil => cases h
  | cons c tail =>
    cases hd : decode m c with
    | none => simp [decodeCode, hd] at h
    | some i =>
      by_cases hi : i = .literal
      · subst hi
        cases tail with
        | nil => simp [decodeCode, hd] at h
        | cons v tail =>
          rw [decodeCode_of_literal hd] at h
          cases h
          exact .inl ⟨c, v, hd, rfl, rfl⟩
      · rw [decodeCode_of_ne_literal hd hi] at h
        cases h
        exact .inr ⟨c, i, hd, hi, rfl, rfl⟩

/-! ### The cells of a listing (R82) -/

/-- A listing item stands for a cell value. -/
theorem ListingItem.cell_inCellRange (hp : p.WellFormed) (x : ListingItem) : InCellRange p.width (x.cell p) := by
  cases x with
  | mnemonic i => exact ⟨(zero_inCellRange p.width).1.trans (hp.code_range i).1, (hp.code_range i).2⟩
  | integer v => exact wrap_inCellRange p.width v

theorem ListingItem.wrap_cell (hp : p.WellFormed) (x : ListingItem) : wrap p.width (x.cell p) = x.cell p :=
  wrap_of_inCellRange (Nat.one_le_of_lt hp.two_le_width) (x.cell_inCellRange hp)

end

/-! ### The obligations about the decoder -/

/-- Settles O9: the opcode cell decodes to its own instruction, and the format says whether an operand cell follows. -/
theorem decodeOfEncodeIsTheInstruction : Obligations.DecodeOfEncodeIsTheInstruction := by
  intro p c rest hp ⟨hformat, _⟩
  rcases Code.formatOk_iff.mp hformat with ⟨v, rfl⟩ | ⟨i, hi, rfl⟩
  · exact decodeCode_of_literal (decode_code_self hp.nodup .literal) v
  · exact decodeCode_of_ne_literal (decode_code_self hp.nodup i) hi

/-- Settles O10: in each format the decoder keeps the operand cell as it is, and the opcode cell is the code of what it
decoded to. -/
theorem encodeOfDecodeIsTheCells : Obligations.EncodeOfDecodeIsTheCells := by
  intro p cells code rest hcells h
  rcases decodeCode_cases h with ⟨c, v, hd, rfl, rfl⟩ | ⟨c, i, hd, hi, rfl, rfl⟩
  · have hoperand : (Code.mk .literal (some v)).OperandOk p.width := fun w hw => by
      cases hw
      exact hcells v (by simp)
    exact ⟨⟨Code.formatOk_iff.mpr (.inl ⟨v, rfl⟩), hoperand⟩, by simp [encode, decode_code hd]⟩
  · exact ⟨⟨Code.formatOk_iff.mpr (.inr ⟨i, hi, rfl⟩), nofun⟩, by simp [encode, decode_code hd]⟩

/-- Settles O11: distinct codes make the comparison an equivalence, and no code of a configuration is negative. -/
theorem decodingComparesTheWholeCell : Obligations.DecodingComparesTheWholeCell := by
  intro p c hp
  have hnone (hc : ∀ i, c ≠ p.opc.code i) : decode p.opc c = none :=
    Option.eq_none_iff_forall_ne_some.mpr fun i hi => hc i (decode_code hi).symm
  refine ⟨fun i => decode_eq_some_iff hp.nodup, hnone, fun hneg => hnone fun i hi => ?_⟩
  have := (hp.code_range i).1
  omega

/-- Settles O12: the values of the default map are 0 to 13. -/
theorem standardMapIsSparse : Obligations.StandardMapIsSparse := by
  intro c
  rw [decode_eq_none_iff]
  simp only [OpcodeMap.values, OpcodeMap.standard, List.mem_cons, List.not_mem_nil, or_false]
  omega

/-- Settles O13, by running the decoder on each of the eight words. -/
theorem tableWordsDecode : Obligations.TableWordsDecode := by
  unfold Obligations.TableWordsDecode
  decide

end Sys2Proof

namespace Sys2Proof.Machine

section
variable {s : State} {a b v : Int} {p : Params} {image : List Int}

/-! ### Loading an image (R151, R152) -/

theorem LaunchTransaction.memRead_perform_load_same (hwf : s.mem.wf) (hb : s.InBounds a) :
    (LaunchTransaction.perform s (.load a v)).memRead a = .ok (wrap s.params.width v) := by
  simp only [LaunchTransaction.perform, hostLoad_ok hb]
  exact State.memRead_of_mem_write hwf hb rfl rfl

/-- A load is seen at no other address, performed or refused. -/
theorem LaunchTransaction.memRead_perform_load_other (hba : b ≠ a) :
    (LaunchTransaction.perform s (.load a v)).memRead b = s.memRead b := by
  by_cases hb : s.InBounds a
  · simp only [LaunchTransaction.perform, hostLoad_ok hb]
    exact State.memRead_of_mem_write_other hb hba rfl rfl
  · simp only [LaunchTransaction.perform, hostLoad_error hb]

/-- The last cell of an image is loaded last, into the launch state of the cells before it. -/
theorem launch_imageLoads_concat (c : Int) :
    launch s (imageLoads p (image ++ [c])) =
      LaunchTransaction.perform (launch s (imageLoads p image)) (.load (p.programOffset + image.length) c) := by
  simp only [launch, imageLoads, List.mapIdx_concat, List.foldl_concat]

/-- Outside the image every cell is as HostReset left it (D10). -/
theorem memRead_launch_imageLoads_outside (ha : s.InBounds a) :
    a < p.programOffset ∨ p.programOffset + image.length ≤ a →
      (launch s (imageLoads p image)).memRead a = .ok 0 := by
  induction image using List.reverseRecOn with
  | nil => exact fun _ => State.memRead_ok (s := hostReset s) ha
  | append_singleton image c ih =>
    intro hout
    rw [List.length_append, List.length_singleton] at hout
    rw [launch_imageLoads_concat, LaunchTransaction.memRead_perform_load_other (by omega)]
    exact ih (by omega)

/-- Inside the image the address of cell `k` reads that cell, reduced as HostLoad stores it. -/
theorem memRead_launch_imageLoads_inside (hp : s.params.WellFormed) :
    s.params.programOffset + image.length ≤ s.params.memSize → ∀ (k : Nat) (hk : k < image.length),
      (launch s (imageLoads s.params image)).memRead (s.params.programOffset + k) =
        .ok (wrap s.params.width image[k]) := by
  induction image using List.reverseRecOn with
  | nil => exact fun _ k hk => absurd hk (Nat.not_lt_zero k)
  | append_singleton image c ih =>
    intro hfit k hk
    rw [List.length_append, List.length_singleton] at hfit hk
    rw [launch_imageLoads_concat]
    rcases Nat.lt_succ_iff_lt_or_eq.mp hk with hlt | rfl
    · rw [LaunchTransaction.memRead_perform_load_other (by omega), List.getElem_append_left hlt]
      exact ih (by omega) k hlt
    · have hparams := (launch_frame s (imageLoads s.params image)).1
      have hlow := hp.programOffset.1
      have hb : (launch s (imageLoads s.params image)).InBounds (s.params.programOffset + image.length) := by
        rw [State.InBounds, hparams]
        omega
      rw [LaunchTransaction.memRead_perform_load_same (launch_inv hp _).memory.1 hb, hparams,
        List.getElem_concat_length rfl]

end

/-- Settles O53: the assembled image lies at PROGRAM_OFFSET, and no item's cell is changed by HostLoad's reduction. -/
theorem loadedListingLiesAtTheProgramOffset : Obligations.LoadedListingLiesAtTheProgramOffset := by
  intro s items hp hfit
  have hlength : (assemble s.params items).length = items.length := List.length_map _
  refine ⟨fun k hk => ?inside, fun a ha hout => ?outside⟩
  case inside =>
    rw [memRead_launch_imageLoads_inside hp (by omega) k (by omega)]
    simp only [assemble, List.getElem_map, ListingItem.wrap_cell hp]
  case outside => exact memRead_launch_imageLoads_outside ha (by omega)

end Sys2Proof.Machine
end

section
/-! PROOFS of the family `40_primitives.md` (spec R90 to R97): the cell write as the representative of a congruence
class, the stack controller's push and pop as inverses, what one instruction does to a stack, the policy of faults. -/

namespace Sys2Proof

/-! ### The cell write (R90, R91) -/

section
variable {W n : Nat} {v r x y : Int}

/-- A cell value congruent to `v` is the reduction of `v`: there is one per class. -/
theorem eq_wrap_of_dvd (hW : 1 ≤ W) (hr : InCellRange W r) (h : cellModulus W ∣ r - v) : r = wrap W v := by
  rw [← wrap_eq_of_dvd h, wrap_of_inCellRange hW hr]

theorem wrap_modEq (W : Nat) (v : Int) : wrap W v ≡ v [ZMOD cellModulus W] :=
  (Int.modEq_iff_dvd.mpr (dvd_wrap_sub W v)).symm

theorem wrap_eq_of_modEq (h : x ≡ y [ZMOD cellModulus W]) : wrap W x = wrap W y :=
  wrap_eq_of_dvd (Int.modEq_iff_dvd.mp h.symm)

/-- The second closed form of R90, with `MIN` written out. -/
theorem wrap_eq_emod_sub (W : Nat) (v : Int) :
    wrap W v = (v + ((2 ^ (W - 1) : Nat) : Int)) % cellModulus W - ((2 ^ (W - 1) : Nat) : Int) := by
  rw [wrap, minCell, sub_neg_eq_add, ← sub_eq_add_neg]

theorem maxCell_add_one_eq (hW : 1 ≤ W) : maxCell W + 1 = minCell W + cellModulus W := by
  rw [cellModulus_eq hW, maxCell, minCell]
  ring

theorem minCell_inCellRange (hW : 1 ≤ W) : InCellRange W (minCell W) := by
  have hmod := cellModulus_pos W
  have hmax := maxCell_add_one_eq hW
  exact ⟨le_refl _, by omega⟩

theorem maxCell_inCellRange (hW : 1 ≤ W) : InCellRange W (maxCell W) := by
  have hmod := cellModulus_pos W
  have hmax := maxCell_add_one_eq hW
  exact ⟨by omega, le_refl _⟩

/-- Where the repeated subtraction of `2^W` from a value above `MAX` first reaches `MAX` or less, it has not passed
`MIN`: the value before was still above `MAX`. -/
theorem sub_mul_inCellRange_of_first (hW : 1 ≤ W) (hv : maxCell W < v) (hle : v - n * cellModulus W ≤ maxCell W)
    (hfirst : ∀ m : Nat, m < n → maxCell W < v - m * cellModulus W) : InCellRange W (v - n * cellModulus W) := by
  have hmax := maxCell_add_one_eq hW
  cases n with
  | zero => exact absurd hv (by simpa using hle)
  | succ m =>
    have hprev := hfirst m m.lt_succ_self
    refine ⟨?_, hle⟩
    push_cast
    rw [add_one_mul]
    omega

end

/-- Settles O1: the reduction is a cell value of the class of `v`, and a class holds one cell value. -/
theorem wrapIsTheUniqueCongruentCellValue : Obligations.WrapIsTheUniqueCongruentCellValue := by
  intro W v hW
  have hW1 : 1 ≤ W := by omega
  exact ⟨wrap_inCellRange W v, dvd_wrap_sub W v, fun r hr h => eq_wrap_of_dvd hW1 hr h, wrap_eq_emod_sub W v⟩

/-- Settles O2: each law compares two members of one class modulo `2^W`, or names the cell value of a class. -/
theorem wrapLawsAtTheEdgesAndUnderArithmetic : Obligations.WrapLawsAtTheEdgesAndUnderArithmetic := by
  intro W v x y hW
  have hW1 : 1 ≤ W := by omega
  have hmax := maxCell_add_one_eq hW1
  have hx := (wrap_modEq W x).symm
  have hy := (wrap_modEq W y).symm
  refine ⟨wrap_of_inCellRange hW1, wrap_eq_of_modEq (wrap_modEq W v), wrap_modEq W v, wrap_eq_of_modEq (hx.add hy),
    wrap_eq_of_modEq (hx.sub hy), wrap_eq_of_modEq (hx.mul hy), fun n hv hle hfirst => ?subtraction, ?aboveMax,
    ?belowMin, ?modulus, ?negModulus⟩
  case subtraction =>
    exact eq_wrap_of_dvd hW1 (sub_mul_inCellRange_of_first hW1 hv hle hfirst) ⟨-n, by ring⟩
  case aboveMax => exact (eq_wrap_of_dvd hW1 (minCell_inCellRange hW1) ⟨-1, by rw [hmax]; ring⟩).symm
  case belowMin => exact (eq_wrap_of_dvd hW1 (maxCell_inCellRange hW1) ⟨1, by linarith⟩).symm
  case modulus => exact (eq_wrap_of_dvd hW1 (zero_inCellRange W) ⟨-1, by ring⟩).symm
  case negModulus => exact (eq_wrap_of_dvd hW1 (zero_inCellRange W) ⟨1, by ring⟩).symm

end Sys2Proof

namespace Sys2Proof.Machine

/-! ### Pushes and pops (R92, R93) -/

section
variable {s t u : State} {k : StackId} {st : Stack} {W D n : Nat} {v : Int} {vs : List Int}

/-- A pop undoes a push: the cell it zeroes was zero before, as every cell above the top is (R26). -/
theorem Stack.Inv.pushed_popped (h : st.Inv W D) (hroom : st.sp < (D : Int) - 1) : (st.pushed v).popped = st := by
  obtain ⟨hlen, ⟨hlo, -⟩, -, hzero⟩ := h
  have hfree : (st.sp + 1).toNat < st.cells.length := by omega
  have habove : st.cells[(st.sp + 1).toNat] = 0 := by
    simpa [List.getD_eq_getElem?_getD, hfree] using hzero (st.sp + 1).toNat (by omega) (by omega)
  have hcells : st.cells.set (st.sp + 1).toNat 0 = st.cells := by
    conv_lhs => rw [← habove]
    exact List.set_getElem_self hfree
  simp [Stack.popped, Stack.pushed, hcells]

/-- The cell a pop leaves reads zero; where `sp` names no cell, it did so before. -/
@[simp] theorem Stack.popped_cell_top : st.popped.cell st.sp = 0 := by
  by_cases h : st.sp < 0
  · simp [h]
  · rw [Stack.cell_of_nonneg (not_lt.mp h), Stack.popped_cells, List.getD_eq_getElem?_getD, List.getElem?_set_self']
    cases st.cells[st.sp.toNat]? <;> rfl

/-- A pop immediately after a push returns the value pushed and the state before. -/
theorem State.pop_setStack_pushed (h : (s.stack k).Inv W D) (hroom : (s.stack k).sp < (D : Int) - 1) :
    (s.setStack k ((s.stack k).pushed v)).pop k = .ok (v, s) := by
  have hundo := h.pushed_popped (v := v) hroom
  obtain ⟨hlen, ⟨hlo, -⟩, -, -⟩ := h
  rw [State.pop_ok (by simp; omega), State.setStack_stack, Stack.pushed_top hlo (by omega), State.setStack_setStack,
    hundo, State.setStack_self]

theorem State.pushAll_cons (h : s.push k v = .ok t) : s.pushAll k (v :: vs) = t.pushAll k vs := by
  simp [State.pushAll, h, bind, Except.bind]

/-- One pop more: its value comes last. -/
theorem State.popAll_succ (h : s.popAll k n = .ok (vs, t)) (hpop : t.pop k = .ok (v, u)) :
    s.popAll k (n + 1) = .ok (vs ++ [v], u) := by
  induction n generalizing s vs with
  | zero =>
    cases h
    simp [State.popAll, hpop, bind, Except.bind, pure, Except.pure]
  | succ n ih =>
    rw [State.popAll] at h ⊢
    cases hfirst : s.pop k with
    | error f => simp [hfirst, bind, Except.bind] at h
    | ok first =>
      obtain ⟨w, s'⟩ := first
      cases hrest : s'.popAll k n with
      | error f => simp [hfirst, hrest, bind, Except.bind] at h
      | ok rest =>
        obtain ⟨ws, t'⟩ := rest
        simp only [hfirst, hrest, bind, Except.bind, pure, Except.pure, Except.ok.injEq, Prod.mk.injEq] at h
        obtain ⟨rfl, rfl⟩ := h
        simp [ih hrest, bind, Except.bind, pure, Except.pure]

/-- Pushes that fit come off in reverse order, each reduced: the first value pushed is the last popped. -/
theorem State.pushAll_popAll (hst : (s.stack k).Inv s.params.width s.params.depth)
    (hfit : (s.stack k).sp + vs.length ≤ (s.params.depth : Int) - 1) :
    ∃ t, s.pushAll k vs = .ok t ∧ t.popAll k vs.length = .ok ((vs.map (wrap s.params.width)).reverse, s) := by
  induction vs generalizing s with
  | nil => exact ⟨s, rfl, rfl⟩
  | cons v vs ih =>
    push_cast [List.length_cons] at hfit
    have hroom : (s.stack k).sp < (s.params.depth : Int) - 1 := by omega
    have hpushed := hst.pushed (wrap_inCellRange _ v) hroom
    obtain ⟨t, hpush, hpop⟩ := ih (s := s.setStack k ((s.stack k).pushed (wrap s.params.width v)))
      (by simpa using hpushed) (by simp; omega)
    refine ⟨t, (State.pushAll_cons (State.push_ok hroom)).trans hpush, ?_⟩
    simpa using State.popAll_succ hpop (State.pop_setStack_pushed hst hroom)

end

/-- Settles O6: a push that fits writes the cell above the top, and the pop that follows undoes it. -/
theorem pushWritesTheCellAboveTheTop : Obligations.PushWritesTheCellAboveTheTop := by
  intro s k v hst
  refine ⟨State.push_error, fun hroom => ⟨_, State.push_ok hroom, ?_⟩⟩
  have hpop := State.pop_setStack_pushed (v := wrap s.params.width v) hst hroom
  obtain ⟨hlen, ⟨hlo, -⟩, -, -⟩ := hst
  refine ⟨by simp, ?top, fun i hi => ?cells, fun j hj => State.setStack_stack_other _ _ _ hj, by simp, by simp, by simp,
    by simp, hpop⟩
  case top => rw [State.setStack_stack, Stack.pushed_top hlo (by omega)]
  case cells => rw [State.setStack_stack, Stack.pushed_cell_other hi hlo]

/-- Settles O7: the frame of one pop, and for the list of pushes induction on it. -/
theorem popsReturnPushesInReverseOrder : Obligations.PopsReturnPushesInReverseOrder := by
  intro s k hst
  refine ⟨fun hempty => State.pop_error (by omega), fun h0 => ⟨_, State.pop_ok h0, ?pop⟩,
    fun vs hfit => State.pushAll_popAll hst hfit⟩
  case pop =>
    exact ⟨by simp, by simp, fun i hi => by rw [State.setStack_stack, Stack.popped_cell hi h0],
      fun j hj => State.setStack_stack_other _ _ _ hj, by simp, by simp, by simp, by simp⟩

/-! ### What one instruction does to a stack -/

/-- The stack after one instruction (R27, R28): at most two pops, each of an element that is there, then at most one
push. -/
inductive Stack.Effect (st : Stack) : Stack → Prop
  | keep : Effect st st
  | push (v : Int) : Effect st (st.pushed v)
  | pop (h0 : 0 ≤ st.sp) : Effect st st.popped
  | popPush (h0 : 0 ≤ st.sp) (v : Int) : Effect st (st.popped.pushed v)
  | popPop (h1 : 1 ≤ st.sp) : Effect st st.popped.popped
  | popPopPush (h1 : 1 ≤ st.sp) (v : Int) : Effect st (st.popped.popped.pushed v)

section
variable {s t u : State} {k : StackId} {st st' : Stack} {i : Instr} {j : Int}

/-- No effect reaches further than the two top cells and the cell above the top. -/
theorem Stack.Effect.cell_eq (h : st.Effect st') (hsp : -1 ≤ st.sp) (hunder : j ≠ st.sp - 1) (htop : j ≠ st.sp)
    (habove : j ≠ st.sp + 1) : st'.cell j = st.cell j := by
  cases h with
  | keep => rfl
  | push v => exact Stack.pushed_cell_other habove hsp
  | pop h0 => exact Stack.popped_cell htop h0
  | popPush h0 v =>
    rw [Stack.pushed_cell_other (by simpa using htop) (by simp; omega), Stack.popped_cell htop h0]
  | popPop h1 =>
    rw [Stack.popped_cell hunder (by simp; omega), Stack.popped_cell htop (by omega)]
  | popPopPush h1 v =>
    rw [Stack.pushed_cell_other (by simpa using hunder) (by simp; omega),
      Stack.popped_cell hunder (by simp; omega), Stack.popped_cell htop (by omega)]

@[simp] theorem State.setPc_stack (s : State) (x : Int) (k : StackId) : (s.setPc x).stack k = s.stack k := by
  cases k <;> rfl

@[simp] theorem State.advance_stack (s : State) (x : Int) (k : StackId) : (s.advance x).stack k = s.stack k :=
  s.setPc_stack (s.pc + x) k

@[simp] theorem State.raise_stack (s : State) (f : Fault) (k : StackId) : (s.raise f).stack k = s.stack k := by
  cases k <;> rfl

theorem State.load_effect (h : s.load k = .ok u) : (s.stack k).Effect (u.stack k) := by
  rcases s.load_cases k with ⟨-, he⟩ | ⟨-, -, he⟩ | ⟨-, -, -, he⟩ | ⟨h0, -, -, he⟩ <;> rw [he] at h <;> cases h
  rw [State.advance_stack, State.setStack_stack, ← Stack.popped_pushed]
  exact .popPush h0 _

theorem State.store_effect (h : s.store k = .ok u) : (s.stack k).Effect (u.stack k) := by
  rcases s.store_cases k with ⟨-, he⟩ | ⟨-, -, he⟩ | ⟨h1, -, he⟩ <;> rw [he] at h <;> cases h
  cases k <;> exact .popPop h1

theorem State.pushLiteral_effect (h : s.pushLiteral = .ok u) : s.ds.Effect u.ds := by
  rcases s.pushLiteral_cases with ⟨-, he⟩ | ⟨-, -, he⟩ | ⟨-, -, he⟩ <;> rw [he] at h <;> cases h
  exact .push _

theorem State.binary_effect {op : Int → Int → Except Fault Int} (h : s.binary op = .ok u) : s.ds.Effect u.ds := by
  rcases s.binary_cases op with ⟨-, he⟩ | ⟨-, _, -, he⟩ | ⟨-, -, he⟩ | ⟨h1, -, r, -, he⟩ <;> rw [he] at h <;> cases h
  rw [← Stack.popped_popped_pushed]
  exact .popPopPush h1 _

theorem State.branchIf_effect (h : s.branchIf = .ok u) : s.ds.Effect u.ds := by
  rcases s.branchIf_cases with ⟨-, he⟩ | ⟨h0, -, he⟩ | ⟨-, -, _, -, he⟩ | ⟨h0, -, _, -, he⟩ <;> rw [he] at h <;> cases h
  · exact .pop h0
  · exact .pop h0

theorem State.jumpRelative_effect (h : s.jumpRelative = .ok u) : s.ds.Effect u.ds := by
  rcases s.jumpRelative_cases with ⟨-, he⟩ | ⟨h0, he⟩ <;> rw [he] at h <;> cases h
  exact .pop h0

theorem State.operation_effect (h : s.operation i = .ok u) :
    (s.stack (stackUsed i)).Effect (u.stack (stackUsed i)) := by
  cases i with
  | noop | then_ =>
    cases h
    exact .keep
  | dsFetch | rsFetch => exact State.load_effect h
  | dsStore | rsStore => exact State.store_effect h
  | literal => exact State.pushLiteral_effect h
  | dsAdd | dsSub | dsMul | dsDiv | dsEq =>
    simp only [State.operation] at h
    exact State.binary_effect h
  | if_ => exact State.branchIf_effect h
  | jump => exact State.jumpRelative_effect h

/-- A fault leaves both stacks, and an operation the stack its instruction does not use. -/
theorem exec_effect (h : exec i s = .next t) (k : StackId) : (s.stack k).Effect (t.stack k) := by
  rcases exec_cases h with hok | ⟨f, -, rfl⟩
  · by_cases hk : k = stackUsed i
    · subst hk
      exact State.operation_effect hok
    · rw [State.operation_stack_other hok hk]
      exact .keep
  · rw [State.raise_stack]
    exact .keep

end

/-- Settles O33, from the cells that the effect of an instruction on a stack can reach. -/
theorem stackCellsAwayFromTheTopAreUnchanged : Obligations.StackCellsAwayFromTheTopAreUnchanged :=
  fun _ _ _ k _ h hsp hunder htop habove => (exec_effect h k).cell_eq hsp hunder htop habove

/-! ### The policy of faults (R96, R97) -/

/-- Settles O35: an operation writes no status, and a fault discards all that the operation wrote. -/
theorem faultDiscardsEveryWrite : Obligations.FaultDiscardsEveryWrite := by
  intro i s t h
  rcases exec_cases h with hok | ⟨f, -, rfl⟩
  · exact .inl (State.operation_status hok)
  · exact .inr ⟨f, rfl⟩

end Sys2Proof.Machine
end

section
/-! PROOFS of the family `41_execution_loop.md` (spec R100 to R104): what the fetch answers, the step in each of its
cases, and the two ways in which a JUMP leaves memory. -/

namespace Sys2Proof.Machine

section
variable {s t u : State} {i : Instr} {f : Fault} {r : Result}

/-! ### Fetch and decode (lines 1 and 2 of R100) -/

theorem State.fetchDecode_outOfBounds (hnb : ¬ s.InBounds s.pc) :
    s.fetchDecode = .error (.addressOutOfBounds s.pc) := by
  simp only [State.fetchDecode, State.memRead_error hnb]

theorem State.fetchDecode_unregistered (hb : s.InBounds s.pc)
    (hd : decode s.params.opc (s.mem.read s.pc.toNat) = none) :
    s.fetchDecode = .error (.unknownOpcode (s.mem.read s.pc.toNat) s.pc) := by
  simp only [State.fetchDecode, State.memRead_ok hb, hd]

theorem State.fetchDecode_registered (hb : s.InBounds s.pc)
    (hd : decode s.params.opc (s.mem.read s.pc.toNat) = some i) : s.fetchDecode = .ok i := by
  simp only [State.fetchDecode, State.memRead_ok hb, hd]

/-! ### The end test (line 4 of R100) -/

/-- The end test latches `EndOfProgram` exactly on a Running state with `pc ≥ M`. -/
theorem State.endTest_eq_ite (s : State) : s.endTest =
    if s.status = .running ∧ (s.params.memSize : Int) ≤ s.pc then s.terminate .endOfProgram else s := by
  cases hst : s.status with
  | terminated r => simp [State.endTest_of_terminated hst]
  | running =>
    by_cases hpc : (s.params.memSize : Int) ≤ s.pc
    · simp [State.endTest_of_le hst hpc, hpc]
    · simp [State.endTest_of_lt (not_le.mp hpc), hpc]

/-! ### The step -/

theorem step_of_terminated (h : s.status = .terminated r) : step s = .next s := by
  simp only [step, h]

theorem step_of_fetchDecode_error (hrun : s.status = .running) (hf : s.fetchDecode = .error f) :
    step s = .next (s.raise f) := by
  simp only [step, hrun, hf]

theorem step_of_exec (hrun : s.status = .running) (hf : s.fetchDecode = .ok i) (he : exec i s = .next u) :
    step s = .next u.endTest := by
  simp only [step, hrun, hf, he, afterExec]

/-- Where the code of `i` stands at `pc`, the step is the operation of `i` and the end test. -/
theorem step_of_code (hp : s.params.WellFormed) (hrun : s.status = .running) (hb : s.InBounds s.pc)
    (hop : s.mem.read s.pc.toNat = s.params.opc.code i) (ho : s.operation i = .ok t) : step s = .next t.endTest :=
  step_of_operation_ok hrun (State.fetchDecode_registered hb (hop ▸ decode_code_self hp.nodup i)) ho

theorem exec_params (h : exec i s = .next t) : t.params = s.params := by
  rcases exec_cases h with hok | ⟨f, -, rfl⟩
  · exact State.operation_params hok
  · rfl

/-- From a Running state only a fault of the instruction latches a result, with nothing else changed (R96). -/
theorem exec_eq_raise_of_status (hrun : s.status = .running) (h : exec i s = .next u)
    (hu : u.status = .terminated (.fault f)) : u = s.raise f := by
  rcases exec_cases h with hok | ⟨g, -, rfl⟩
  · rw [State.operation_status hok, hrun] at hu
    cases hu
  · cases hu
    rfl

/-- Settles O38: each case is what the fetch answers, and a fault of the instruction passes the end test unchanged. -/
theorem stepRunsTheDecodedInstruction : Obligations.StepRunsTheDecodedInstruction := by
  intro s hrun
  refine ⟨fun hnb => ?fetch, fun hb hcode => ?decode, fun i u hb hd he => ?exec⟩
  case fetch => exact step_of_fetchDecode_error hrun (State.fetchDecode_outOfBounds hnb)
  case decode =>
    have hd : decode s.params.opc (s.mem.read s.pc.toNat) = none :=
      Option.eq_none_iff_forall_ne_some.mpr fun i hi => hcode i (decode_code hi).symm
    exact step_of_fetchDecode_error hrun (State.fetchDecode_unregistered hb hd)
  case exec =>
    have hstep := step_of_exec hrun (State.fetchDecode_registered hb hd) he
    refine ⟨?_, fun f hu => ?_⟩
    · rw [hstep, State.endTest_eq_ite, ← exec_params he]
      rfl
    · rw [hstep, State.endTest_of_terminated hu, exec_eq_raise_of_status hrun he hu]
      rfl

/-! ### A terminated engine (R102) -/

theorem hostRun_of_terminated (h : s.status = .terminated r) (n : Nat) : hostRun n s = (s, some r) := by
  cases n with
  | zero => simp only [hostRun, h, Status.result]
  | succ n => simp only [hostRun, h]

/-- Settles O40: the step and the run test the status first. -/
theorem terminatedEngineNeverChanges : Obligations.TerminatedEngineNeverChanges := by
  intro s r h
  have hstep := step_of_terminated h
  exact ⟨hstep, by rw [hostStep_of_step hstep, h], hostRun_of_terminated h⟩

/-! ### NOOP and THEN (R104, R142) -/

/-- Settles O14: both instructions have the operation `advance 1`, which from the last cell meets the end test. -/
theorem noopAndThenOnlyAdvance : Obligations.NoopAndThenOnlyAdvance := by
  intro s
  refine ⟨rfl, rfl, fun hp => ⟨decode_code_self hp.nodup .noop, decode_code_self hp.nodup .then_, ?step⟩⟩
  case step =>
    intro hrun hpc hcell
    have ⟨_, _, hM, _⟩ := hp
    have hb : s.InBounds s.pc := by omega
    have hend : (s.advance 1).pc = s.params.memSize := by simp [hpc]
    have hstep : step s = .next (s.advance 1).endTest := by
      rcases hcell with hop | hop
      · exact step_of_code (i := .noop) hp hrun hb hop rfl
      · exact step_of_code (i := .then_) hp hrun hb hop rfl
    rw [hstep, State.endTest_of_le (s := s.advance 1) hrun hend.ge, ← hend]
    rfl

/-! ### A JUMP out of memory (R103) -/

theorem State.jumpRelative_ok (h0 : 0 ≤ s.ds.sp) :
    s.jumpRelative = .ok ((s.setStack .ds s.ds.popped).setPc (s.pc + s.ds.top)) := by
  rcases s.jumpRelative_cases with ⟨hneg, -⟩ | ⟨-, h⟩
  · omega
  · exact h

/-- The step at a JUMP with an offset on DS: the offset is popped, `pc` is the exact sum, and the end test follows. -/
theorem State.Inv.step_jump (hs : s.Inv) (hrun : s.status = .running) (hb : s.InBounds s.pc)
    (hop : s.mem.read s.pc.toNat = s.params.opc.jump) (h0 : 0 ≤ s.ds.sp) :
    step s = .next ((s.setStack .ds s.ds.popped).setPc (s.pc + s.ds.top)).endTest :=
  step_of_code (i := .jump) hs.wellFormed hrun hb hop (State.jumpRelative_ok h0)

/-- Settles O41: a negative `pc` passes the end test, and the next fetch refuses it. -/
theorem jumpBelowZeroFaultsAtTheNextFetch : Obligations.JumpBelowZeroFaultsAtTheNextFetch := by
  intro s hs hrun hb hop h0 hneg
  have hstep := hs.step_jump hrun hb hop h0
  rw [State.endTest_of_lt (by simp; omega)] at hstep
  exact ⟨_, hstep, hrun, rfl, rfl,
    step_of_fetchDecode_error hrun (State.fetchDecode_outOfBounds (by simp; omega))⟩

/-- Settles O42: the end test sees the committed JUMP and latches the normal end. -/
theorem jumpPastTheEndTerminatesNormally : Obligations.JumpPastTheEndTerminatesNormally := by
  intro s hs hrun hb hop h0 hpast
  exact (hs.step_jump hrun hb hop h0).trans (congrArg Host.Outcome.next (State.endTest_of_le hrun hpast))

end

end Sys2Proof.Machine
end

section
/-! PROOFS of the family `42_memory_access.md` (spec R110 to R116): what a load and a store through either stack answer,
and that memory is written by the stores alone. -/

namespace Sys2Proof.Machine

section
variable {s t u : State} {i : Instr} {k : StackId} {a : Int} {f : Fault}

/-- An operation that raises a fault leaves the state before it, with the fault latched (R96). -/
theorem exec_of_operation_error (h : s.operation i = .error f) : exec i s = .next (s.raise f) := by
  rw [exec_eq_commit, h, State.commit_error]

/-! ### Loads and stores through either stack (R110 to R113) -/

/-- Two pops: the two top cells are zeroed. -/
theorem Stack.popped_popped (st : Stack) :
    st.popped.popped = ⟨(st.cells.set st.sp.toNat 0).set (st.sp - 1).toNat 0, st.sp - 2⟩ := by
  have hsp : st.sp - 1 - 1 = st.sp - 2 := by ring
  simp only [Stack.popped, hsp]

/-- The three answers of a load instruction. In a sound state its push has the room that its pop made, and the cell of
memory needs no reduction. -/
theorem State.Inv.exec_load (hs : s.Inv) (hi : s.operation i = s.load k) :
    ((s.stack k).sp < 0 → exec i s = .next (s.raise (.stackUnderflow k))) ∧
    (0 ≤ (s.stack k).sp → ¬ s.InBounds (s.stack k).top →
      exec i s = .next (s.raise (.addressOutOfBounds (s.stack k).top))) ∧
    (0 ≤ (s.stack k).sp → s.InBounds (s.stack k).top →
      exec i s = .next ((s.setStack k ⟨(s.stack k).cells.set (s.stack k).sp.toNat
        (s.mem.read (s.stack k).top.toNat), (s.stack k).sp⟩).advance 1)) := by
  have hD := hs.sp_lt k
  rcases s.load_cases k with ⟨hu, he⟩ | ⟨h0, hnb, he⟩ | ⟨-, -, ho, -⟩ | ⟨h0, hb, -, he⟩
  · exact ⟨fun _ => exec_of_operation_error (hi.trans he), fun h0 => absurd hu (not_lt.mpr h0),
      fun h0 => absurd hu (not_lt.mpr h0)⟩
  · exact ⟨fun hu => absurd hu (not_lt.mpr h0), fun _ _ => exec_of_operation_error (hi.trans he),
      fun _ hb => absurd hb hnb⟩
  · omega
  · rw [hs.wrap_read] at he
    exact ⟨fun hu => absurd hu (not_lt.mpr h0), fun _ hnb => absurd hb hnb,
      fun _ _ => exec_of_operation_ok (hi.trans he)⟩

/-- The three answers of a store instruction. -/
theorem State.Inv.exec_store (hs : s.Inv) (hi : s.operation i = s.store k) :
    ((s.stack k).sp < 1 → exec i s = .next (s.raise (.stackUnderflow k))) ∧
    (1 ≤ (s.stack k).sp → ¬ s.InBounds (s.stack k).top →
      exec i s = .next (s.raise (.addressOutOfBounds (s.stack k).top))) ∧
    (1 ≤ (s.stack k).sp → s.InBounds (s.stack k).top →
      exec i s = .next ({ s.setStack k ⟨((s.stack k).cells.set (s.stack k).sp.toNat 0).set
          ((s.stack k).sp - 1).toNat 0, (s.stack k).sp - 2⟩ with
        mem := s.mem.write (s.stack k).top.toNat ((s.stack k).cell ((s.stack k).sp - 1)) }.advance 1)) := by
  rcases s.store_cases k with ⟨hu, he⟩ | ⟨h1, hnb, he⟩ | ⟨h1, hb, he⟩
  · exact ⟨fun _ => exec_of_operation_error (hi.trans he), fun h1 => absurd hu (not_lt.mpr h1),
      fun h1 => absurd hu (not_lt.mpr h1)⟩
  · exact ⟨fun hu => absurd hu (not_lt.mpr h1), fun _ _ => exec_of_operation_error (hi.trans he),
      fun _ hb => absurd hb hnb⟩
  · rw [hs.wrap_cell, Stack.popped_popped] at he
    exact ⟨fun hu => absurd hu (not_lt.mpr h1), fun _ hnb => absurd hb hnb,
      fun _ _ => exec_of_operation_ok (hi.trans he)⟩

/-! ### What writes memory (R116) -/

/-- Every operation but a store answers with the memory it began with. -/
theorem State.operation_mem (h : s.operation i = .ok u) (hds : i ≠ .dsStore) (hrs : i ≠ .rsStore) : u.mem = s.mem := by
  cases i with
  | dsStore => exact absurd rfl hds
  | rsStore => exact absurd rfl hrs
  | noop | then_ => cases h; rfl
  | dsFetch | rsFetch =>
    obtain ⟨st, rfl⟩ := State.eq_of_load_ok h
    simp
  | literal =>
    obtain ⟨st, rfl⟩ := State.eq_of_pushLiteral_ok h
    simp
  | dsAdd | dsSub | dsMul | dsDiv | dsEq =>
    simp only [State.operation] at h
    obtain ⟨st, rfl⟩ := State.eq_of_binary_ok h
    simp
  | if_ =>
    obtain ⟨st, T, rfl, -⟩ := State.eq_of_branchIf_ok h
    simp
  | jump =>
    obtain ⟨st, rfl⟩ := State.eq_of_jumpRelative_ok h
    simp

theorem exec_mem (h : exec i s = .next t) (hds : i ≠ .dsStore) (hrs : i ≠ .rsStore) : t.mem = s.mem := by
  rcases exec_cases h with hok | ⟨f, -, rfl⟩
  · exact State.operation_mem hok hds hrs
  · rfl

theorem State.memRead_congr (hparams : t.params = s.params) (hmem : t.mem = s.mem) : t.memRead a = s.memRead a := by
  rw [State.memRead_eq, State.memRead_eq, hparams, hmem]

end

/-! ### The obligations -/

/-- Settles O15: DS_FETCH is the load through DS. -/
theorem dsFetchReplacesTheAddressByTheCell : Obligations.DsFetchReplacesTheAddressByTheCell :=
  fun _ hs => ⟨decode_code_self hs.wellFormed.nodup .dsFetch, hs.exec_load (k := .ds) rfl⟩

/-- Settles O16: DS_STORE is the store through DS. -/
theorem dsStoreWritesTheSecondAtTheTop : Obligations.DsStoreWritesTheSecondAtTheTop :=
  fun _ hs => ⟨decode_code_self hs.wellFormed.nodup .dsStore, hs.exec_store (k := .ds) rfl⟩

/-- Settles O17: RS_FETCH is the same load through RS. -/
theorem rsFetchReplacesTheAddressByTheCell : Obligations.RsFetchReplacesTheAddressByTheCell :=
  fun _ hs => ⟨decode_code_self hs.wellFormed.nodup .rsFetch, hs.exec_load (k := .rs) rfl⟩

/-- Settles O18: RS_STORE is the same store through RS. -/
theorem rsStoreWritesTheSecondAtTheTop : Obligations.RsStoreWritesTheSecondAtTheTop :=
  fun _ hs => ⟨decode_code_self hs.wellFormed.nodup .rsStore, hs.exec_store (k := .rs) rfl⟩

/-- Settles O30: a fault writes no memory, and of the operations only the stores do. -/
theorem onlyStoresWriteMemory : Obligations.OnlyStoresWriteMemory :=
  fun _ _ _ h => ⟨exec_params h, fun hds hrs _ => State.memRead_congr (exec_params h) (exec_mem h hds hrs)⟩

end Sys2Proof.Machine
end

section
/-! PROOFS of the family `43_literal.md` (spec R120): the three answers of LITERAL. -/

namespace Sys2Proof.Machine

/-- Settles O19: the three cases of `pushLiteral` are the three clauses. With `pc` in bounds, `pc + 1` is out of bounds
only at or above `M`, and in a sound state the operand cell needs no reduction. -/
theorem literalPushesTheNextCell : Obligations.LiteralPushesTheNextCell := by
  intro s hs hb
  refine ⟨decode_code_self hs.wellFormed.nodup .literal, ?_⟩
  rcases s.pushLiteral_cases with ⟨hnb, he⟩ | ⟨⟨-, hM⟩, hfull, he⟩ | ⟨⟨-, hM⟩, hroom, he⟩
  · have hM : (s.params.memSize : Int) ≤ s.pc + 1 := by omega
    exact ⟨fun _ => exec_of_operation_error he, fun h => absurd hM (not_le.mpr h), fun h => absurd hM (not_le.mpr h)⟩
  · exact ⟨fun h => absurd hM (not_lt.mpr h), fun _ _ => exec_of_operation_error he,
      fun _ hroom => absurd hfull (not_le.mpr hroom)⟩
  · rw [hs.wrap_read] at he
    exact ⟨fun h => absurd hM (not_lt.mpr h), fun _ hfull => absurd hroom (not_lt.mpr hfull),
      fun _ _ => exec_of_operation_ok he⟩

end Sys2Proof.Machine
end

section
/-! PROOFS of the family `44_arithmetic.md` (spec R125 to R132): the reduction as the signed reading of `W` bits, the
quotient rounded toward zero, and the answers of the two-operand instructions. -/

namespace Sys2Proof

section
variable {W : Nat} {b a : Int}

/-! ### The reduction and `W`-bit words (R131) -/

theorem toInt_inCellRange (x : BitVec W) : InCellRange W x.toInt := by
  have hlo := x.le_toInt
  have hhi := x.toInt_lt
  simp only [InCellRange, minCell, maxCell]
  push_cast
  omega

/-- The reduction keeps the low `W` bits and reads them as a signed number: the reading is a cell value of the class. -/
theorem wrap_eq_toInt_ofInt (hW : 1 ≤ W) (v : Int) : wrap W v = (BitVec.ofInt W v).toInt := by
  have hclass : cellModulus W ∣ (BitVec.ofInt W v).toInt - v := by
    rw [BitVec.toInt_ofInt]
    exact Int.dvd_bmod_sub_self
  exact (eq_wrap_of_dvd hW (toInt_inCellRange _) hclass).symm

/-! ### The quotient rounded toward zero (R10, R132) -/

/-- The remainder of a division that rounds toward zero is smaller than the divisor and has the sign of the dividend. -/
theorem tdiv_remainder (b : Int) (ha : a ≠ 0) :
    ∃ r, b = b.tdiv a * a + r ∧ |r| < |a| ∧ (r = 0 ∨ r.sign = b.sign) := by
  refine ⟨b.tmod a, (Int.tdiv_mul_add_tmod b a).symm, ?smaller, ?sign⟩
  case smaller =>
    rw [Int.abs_eq_natAbs, Int.abs_eq_natAbs, Int.natAbs_tmod]
    exact_mod_cast Nat.mod_lt _ (Int.natAbs_pos.mpr ha)
  case sign =>
    by_cases hdvd : a ∣ b
    · exact .inl (Int.tmod_eq_zero_of_dvd hdvd)
    · exact .inr (by rw [Int.sign_tmod, if_neg hdvd])

theorem tdiv_eq_zero_of_abs_lt (h : |b| < |a|) : b.tdiv a = 0 := by
  rw [Int.abs_eq_natAbs, Int.abs_eq_natAbs, Nat.cast_lt] at h
  exact Int.sign_eq_zero_iff_zero.mp (by rw [Int.sign_tdiv, if_pos h])

theorem sign_tdiv_of_abs_le (h : |a| ≤ |b|) : (b.tdiv a).sign = b.sign * a.sign := by
  rw [Int.abs_eq_natAbs, Int.abs_eq_natAbs, Nat.cast_le] at h
  rw [Int.sign_tdiv, if_neg (not_lt.mpr h)]

/-- The divisors 1 and -1 keep the magnitude of the dividend, and every other one halves it at least. -/
theorem tdiv_inCellRange (hb : InCellRange W b) (ha : a ≠ 0) (h : ¬ (b = minCell W ∧ a = -1)) :
    InCellRange W (b.tdiv a) := by
  have hhalf := half_pos W
  simp only [InCellRange, minCell, maxCell] at hb h ⊢
  by_cases hone : a = 1
  · simpa [hone] using hb
  by_cases hneg : a = -1
  · rw [hneg, Int.tdiv_neg, Int.tdiv_one]
    omega
  · have hquot : (b.tdiv a).natAbs ≤ b.natAbs / 2 := by
      rw [Int.natAbs_tdiv]
      exact Nat.div_le_div_left (by omega) (by omega)
    omega

/-- `MIN / -1` is one above `MAX`, and the reduction takes it back to `MIN`. -/
theorem wrap_minCell_tdiv_neg_one (hW : 1 ≤ W) : wrap W ((minCell W).tdiv (-1)) = minCell W := by
  rw [Int.tdiv_neg, Int.tdiv_one]
  refine (eq_wrap_of_dvd hW (minCell_inCellRange hW) ⟨-1, ?_⟩).symm
  rw [cellModulus_eq hW, minCell]
  ring

end

/-- Settles O3: both sides read the low `W` bits of one exact integer. -/
theorem arithmeticIsTwosComplement : Obligations.ArithmeticIsTwosComplement := by
  intro W b a hW
  have hread := wrap_eq_toInt_ofInt (show 1 ≤ W by omega)
  refine ⟨?sum, ?difference, ?product⟩
  case sum => rw [hread, BitVec.ofInt_add]
  case difference => rw [hread, sub_eq_add_neg, BitVec.ofInt_add, BitVec.ofInt_neg, ← sub_eq_add_neg]
  case product => rw [hread, BitVec.ofInt_mul]

/-- Settles O5: the model's quotient is the truncating one, a cell value unless it is `MIN / -1`. -/
theorem divisionTruncatesTowardZero : Obligations.DivisionTruncatesTowardZero := by
  intro W b a hW hb _ ha
  have hW1 : 1 ≤ W := by omega
  rw [Machine.tdiv_eq]
  refine ⟨tdiv_remainder b ha, tdiv_eq_zero_of_abs_lt, sign_tdiv_of_abs_le,
    fun h => wrap_of_inCellRange hW1 (tdiv_inCellRange hb ha h), ?_⟩
  rintro rfl rfl
  exact wrap_minCell_tdiv_neg_one hW1

end Sys2Proof

namespace Sys2Proof.Machine

/-! ### The answers of a two-operand instruction (R125 to R130) -/

section
variable {s : State} {i : Instr}

/-- The state that a two-operand instruction with the exact result `r` commits: `r` reduced in the place of the second
operand, the cell of the first zeroed. -/
def State.binaryResult (s : State) (r : Int) : State :=
  { s with
    ds := ⟨(s.ds.cells.set s.ds.sp.toNat 0).set (s.ds.sp - 1).toNat (wrap s.params.width r), s.ds.sp - 1⟩
    pc := s.pc + 1 }

/-- The three answers: underflow, the fault that the operation raises, its result. In a sound state the push has the
room that the pops made. -/
theorem State.Inv.exec_binary {op : Int → Int → Except Fault Int} (hs : s.Inv) (hi : s.operation i = s.binary op) :
    (s.ds.sp < 1 → exec i s = .next (s.raise (.stackUnderflow .ds))) ∧
    (∀ f, 1 ≤ s.ds.sp → op (s.ds.cell (s.ds.sp - 1)) s.ds.top = .error f → exec i s = .next (s.raise f)) ∧
    (∀ r, 1 ≤ s.ds.sp → op (s.ds.cell (s.ds.sp - 1)) s.ds.top = .ok r → exec i s = .next (s.binaryResult r)) := by
  have hD : s.ds.sp < s.params.depth := hs.sp_lt .ds
  rcases s.binary_cases op with ⟨hu, he⟩ | ⟨h1, f, hf, he⟩ | ⟨-, hfull, -⟩ | ⟨h1, -, r, hr, he⟩
  · exact ⟨fun _ => exec_of_operation_error (hi.trans he), fun _ h1 => absurd hu (not_lt.mpr h1),
      fun _ h1 => absurd hu (not_lt.mpr h1)⟩
  · refine ⟨fun hu => absurd hu (not_lt.mpr h1), fun g _ hg => ?_, fun r _ hr => ?_⟩
    · cases hf.symm.trans hg
      exact exec_of_operation_error (hi.trans he)
    · cases hf.symm.trans hr
  · omega
  · refine ⟨fun hu => absurd hu (not_lt.mpr h1), fun f _ hf => ?_, fun q _ hq => ?_⟩
    · cases hr.symm.trans hf
    · cases hr.symm.trans hq
      exact exec_of_operation_ok (hi.trans he)

/-- The two answers where the operation is total. -/
theorem State.Inv.exec_binary_total {op : Int → Int → Int} (hs : s.Inv)
    (hi : s.operation i = s.binary fun b a => .ok (op b a)) :
    (s.ds.sp < 1 → exec i s = .next (s.raise (.stackUnderflow .ds))) ∧
    (1 ≤ s.ds.sp → exec i s = .next (s.binaryResult (op (s.ds.cell (s.ds.sp - 1)) s.ds.top))) := by
  obtain ⟨hunder, -, hok⟩ := hs.exec_binary hi
  exact ⟨hunder, fun h1 => hok _ h1 rfl⟩

end

/-! ### The obligations -/

/-- Settles O20: DS_ADD is the two-operand instruction of the exact sum. -/
theorem dsAddPushesTheWrappedSum : Obligations.DsAddPushesTheWrappedSum :=
  fun _ hs => ⟨decode_code_self hs.wellFormed.nodup .dsAdd, hs.exec_binary_total (op := (· + ·)) rfl⟩

/-- Settles O21: DS_SUB is the two-operand instruction of the exact difference, the second operand first. -/
theorem dsSubPushesTheWrappedDifference : Obligations.DsSubPushesTheWrappedDifference :=
  fun _ hs => ⟨decode_code_self hs.wellFormed.nodup .dsSub, hs.exec_binary_total (op := (· - ·)) rfl⟩

/-- Settles O22: DS_MUL is the two-operand instruction of the exact product. -/
theorem dsMulPushesTheWrappedProduct : Obligations.DsMulPushesTheWrappedProduct :=
  fun _ hs => ⟨decode_code_self hs.wellFormed.nodup .dsMul, hs.exec_binary_total (op := (· * ·)) rfl⟩

/-- Settles O23: the quotient raises its fault on a zero divisor alone, and is Lean's truncating one elsewhere. -/
theorem dsDivPushesTheTruncatedQuotient : Obligations.DsDivPushesTheTruncatedQuotient := by
  intro s hs
  obtain ⟨hunder, hfault, hok⟩ := hs.exec_binary (i := .dsDiv) (op := quotient) rfl
  refine ⟨decode_code_self hs.wellFormed.nodup .dsDiv, hunder, fun h1 hz => hfault _ h1 (if_pos hz), fun h1 hnz => ?_⟩
  rw [← tdiv_eq]
  exact hok _ h1 (if_neg hnz)

/-- Settles O24: the flag is a cell value, which the push leaves as it is. -/
theorem dsEqPushesOneOrZero : Obligations.DsEqPushesOneOrZero := by
  intro s hs
  rw [← hs.wrap_equalityFlag]
  exact ⟨decode_code_self hs.wellFormed.nodup .dsEq, hs.exec_binary_total (op := equalityFlag) rfl⟩

end Sys2Proof.Machine
end

section
/-! PROOFS of the family `45_control.md` (spec R140 to R143): the first THEN above an address is the one answer of the
scan, and the answers of IF and JUMP. -/

namespace Sys2Proof.Machine

/-- Settles O26: the scan answers a first THEN or finds none, and two first THENs above one address are the same. -/
theorem scanFindsTheFirstThen : Obligations.ScanFindsTheFirstThen := by
  intro s P hP
  rcases State.scanThen_cases hP with ⟨T, hT, hlo, hhi, hthen, hleast⟩ | ⟨hf, hnone⟩
  · rw [hT]
    refine ⟨fun T' => ⟨?found, fun ⟨hlo', _, hthen', hleast'⟩ => ?unique⟩,
      fun f => ⟨nofun, fun ⟨_, hnone⟩ => absurd hthen (hnone T hlo hhi)⟩⟩
    case found =>
      rintro ⟨⟩
      exact ⟨hlo, hhi, hthen, hleast⟩
    case unique =>
      have hle : T ≤ T' := not_lt.mp fun hlt => hleast T' hlo' hlt hthen'
      have hge : T' ≤ T := not_lt.mp fun hlt => hleast' T hlo hlt hthen
      rw [le_antisymm hle hge]
  · rw [hf]
    refine ⟨fun T => ⟨nofun, fun ⟨hlo, hhi, hthen, _⟩ => absurd hthen (hnone T hlo hhi)⟩,
      fun f => ⟨?missing, fun ⟨hfault, _⟩ => by rw [hfault]⟩⟩
    case missing =>
      rintro ⟨⟩
      exact ⟨rfl, hnone⟩

/-- The branches of IF in the order of its checks (R140); on a zero condition it answers what the scan does. -/
theorem State.branchIf_eq_ite (s : State) : s.branchIf =
    if s.ds.sp < 0 then .error (.stackUnderflow .ds)
    else if s.ds.top = 0 then (s.scanThen s.pc).map (s.setStack .ds s.ds.popped).setPc
    else .ok ((s.setStack .ds s.ds.popped).advance 1) := by
  rcases s.branchIf_cases with ⟨hu, he⟩ | ⟨h0, hnz, he⟩ | ⟨h0, hz, f, hscan, he⟩ | ⟨h0, hz, T, hscan, he⟩
  · rw [he, if_pos hu]
  · rw [he, if_neg (not_lt.mpr h0), if_neg hnz]
  · rw [he, if_neg (not_lt.mpr h0), if_pos hz, hscan, Except.map]
  · rw [he, if_neg (not_lt.mpr h0), if_pos hz, hscan, Except.map]

/-- Settles O25: each clause is one branch of IF, and the cells above `pc` decide the scan. -/
theorem ifBranchesOnTheTopOfTheStack : Obligations.IfBranchesOnTheTopOfTheStack := by
  intro s hs hb
  obtain ⟨hfound, hmissing⟩ := scanFindsTheFirstThen s s.pc hb
  refine ⟨decode_code_self hs.wellFormed.nodup .if_, fun hu => exec_of_operation_error ?underflow,
    fun h0 hz hnone => exec_of_operation_error ?noThen, fun h0 hnz => exec_of_operation_ok ?nonzero,
    fun T h0 hz hlo hhi hthen hleast => exec_of_operation_ok ?zero⟩
  case underflow => exact s.branchIf_eq_ite.trans (if_pos hu)
  case nonzero => exact s.branchIf_eq_ite.trans (by rw [if_neg (not_lt.mpr h0), if_neg hnz]; rfl)
  case noThen =>
    have hscan := (hmissing _).mpr ⟨rfl, hnone⟩
    exact s.branchIf_eq_ite.trans (by rw [if_neg (not_lt.mpr h0), if_pos hz, hscan]; rfl)
  case zero =>
    have hscan := (hfound T).mpr ⟨hlo, hhi, hthen, hleast⟩
    exact s.branchIf_eq_ite.trans (by rw [if_neg (not_lt.mpr h0), if_pos hz, hscan]; rfl)

/-- Settles O27: the two cases of `jumpRelative` are the two clauses. -/
theorem jumpAddsTheOffsetToItsOwnAddress : Obligations.JumpAddsTheOffsetToItsOwnAddress := by
  intro s hs
  refine ⟨decode_code_self hs.wellFormed.nodup .jump, ?_⟩
  rcases s.jumpRelative_cases with ⟨hu, he⟩ | ⟨h0, he⟩
  · exact ⟨fun _ => exec_of_operation_error he, fun h0 => absurd hu (not_lt.mpr h0)⟩
  · exact ⟨fun hu => absurd hu (not_lt.mpr h0), fun _ => exec_of_operation_ok he⟩

end Sys2Proof.Machine
end

section
/-! PROOFS of the family `46_host_interface.md` (spec R151 to R159): HostRun as an iterate of HostStep, the range of a
dump cell by cell, and what each transaction of the host answers. -/

namespace Sys2Proof.Machine

/-! ### Runs -/

section
variable {s : State} {st : Status} {r : Result}

theorem Status.result_eq_some_iff : st.result = some r ↔ st = .terminated r := by
  cases st <;> simp [Status.result]

/-- A longer run begins with one HostStep from every state: on a terminated engine neither does anything (R102). -/
theorem hostRun_succ (n : Nat) (s : State) : hostRun (n + 1) s = hostRun n (hostStep s).1 := by
  cases hst : s.status with
  | running => simp only [hostRun, hst]
  | terminated r => rw [hostStep_of_step (step_of_terminated hst), hostRun_of_terminated hst, hostRun_of_terminated hst]

/-- The state a run of at most `n` steps reaches. -/
theorem hostRun_fst_eq_iterate (n : Nat) (s : State) : (hostRun n s).1 = (fun u => (hostStep u).1)^[n] s := by
  induction n generalizing s with
  | zero => rfl
  | succ n ih => rw [hostRun_succ, ih, Function.iterate_succ_apply]

/-- A run answers the result that the reached `status` holds. -/
theorem hostRun_snd_eq_result (n : Nat) (s : State) : (hostRun n s).2 = (hostRun n s).1.status.result := by
  induction n generalizing s with
  | zero => rfl
  | succ n ih => rw [hostRun_succ, ih]

/-- A run stopped after `m` steps can be resumed (R158). -/
theorem hostRun_add (m n : Nat) (s : State) : hostRun (m + n) s = hostRun n (hostRun m s).1 := by
  induction m generalizing s with
  | zero => rw [Nat.zero_add, hostRun]
  | succ m ih => rw [Nat.add_right_comm, hostRun_succ, hostRun_succ, ih]

/-! ### Dumps -/

/-- A cell in bounds stands at the head of the dump. -/
theorem hostDump_succ_of_inBounds {a : Int} (ha : s.InBounds a) (n : Nat) :
    hostDump s a (n + 1) = (hostDump s (a + 1) n).map ((a, s.mem.read a.toNat) :: ·) := by
  rw [hostDump, State.memRead_ok ha]
  cases hostDump s (a + 1) n <;> rfl

theorem hostDump_succ_of_not_inBounds {a : Int} (ha : ¬ s.InBounds a) (n : Nat) :
    hostDump s a (n + 1) = .error (.addressOutOfBounds a) := by
  rw [hostDump, State.memRead_error ha]
  rfl

/-- The pairs of a range inside memory, in rising order. -/
theorem hostDump_ok {start : Int} {count : Nat} (hb : ∀ a, start ≤ a → a < start + count → s.InBounds a) :
    hostDump s start count =
      .ok ((List.range count).map fun (j : Nat) => (start + (j : Int), s.mem.read (start + (j : Int)).toNat)) := by
  induction count generalizing start with
  | zero => rfl
  | succ n ih =>
    push_cast at hb
    rw [hostDump_succ_of_inBounds (hb start le_rfl (by omega)), ih fun a hlo hhi => hb a (by omega) (by omega),
      List.range_succ_eq_map]
    simp [Except.map, Function.comp_def, add_assoc, add_comm (1 : Int)]

/-- A range that leaves memory is refused with its least address out of bounds. -/
theorem hostDump_error {start a : Int} {count : Nat} (hlo : start ≤ a) (hhi : a < start + count) (hnb : ¬ s.InBounds a)
    (hleast : ∀ b, start ≤ b → b < a → s.InBounds b) : hostDump s start count = .error (.addressOutOfBounds a) := by
  induction count generalizing start with
  | zero => omega
  | succ n ih =>
    push_cast at hhi
    rcases hlo.eq_or_lt with rfl | hlt
    · exact hostDump_succ_of_not_inBounds hnb n
    · rw [hostDump_succ_of_inBounds (hleast start le_rfl hlt),
        ih (by omega) (by omega) fun b hb hba => hleast b (by omega) hba, Except.map]

end

/-! ### The obligations -/

/-- Settles O49: reset's data are sound, every launch transaction keeps them, and none writes `pc` or `status`. -/
theorem launchStatesAreSound : Obligations.LaunchStatesAreSound := by
  intro s xs hp
  obtain ⟨hparams, hpc, hrun⟩ := launch_frame s xs
  exact ⟨launch_inv hp xs, hpc, hrun, hparams⟩

/-- Settles O51: the bounds check decides between a write of one cell and a refusal. -/
theorem hostLoadIsACheckedPointWrite : Obligations.HostLoadIsACheckedPointWrite := by
  intro s a v hs
  refine ⟨fun hb => ?inside, fun hnb => hostLoad_error hnb⟩
  case inside =>
    rw [hostLoad_ok hb]
    exact ⟨rfl, State.memRead_of_mem_write hs.memory.1 hb rfl rfl,
      fun b hba => State.memRead_of_mem_write_other hb hba rfl rfl, rfl⟩

/-- Settles O52: the number of elements is `sp + 1`, so it decides the check of the push. -/
theorem hostPreloadIsAReportedPush : Obligations.HostPreloadIsAReportedPush := by
  intro s k v hs
  have hcount := (hs.stack k).elements_length
  obtain ⟨hlen, ⟨hlo, -⟩, -, -⟩ := hs.stack k
  refine ⟨fun hroom => ?room, fun hfull => hostPreload_error (by omega)⟩
  case room =>
    rw [hostPreload_ok (by omega)]
    refine ⟨rfl, rfl, fun i hi => ?cells, by simp, ?elements, fun j hj => State.setStack_stack_other _ _ _ hj, by simp,
      by simp, by simp⟩
    case cells => rw [State.setStack_stack, Stack.pushed_cell_other hi hlo]
    case elements => rw [State.setStack_stack, Stack.elements_pushed hlo (by omega)]

/-- Settles O54: HostRun unfolds one HostStep at a time, on a terminated engine too. -/
theorem hostRunIsRepeatedHostStep : Obligations.HostRunIsRepeatedHostStep := by
  intro m n s
  refine ⟨fun t h => hostStep_of_step h, hostRun_fst_eq_iterate n s, fun r => ?_, hostRun_add m n s⟩
  rw [hostRun_snd_eq_result, Status.result_eq_some_iff]

/-- Settles O56: each cell of the range is put before the dump of the rest, up to the first that is out of bounds. -/
theorem hostDumpReturnsTheRangeOrTheLeastBadAddress : Obligations.HostDumpReturnsTheRangeOrTheLeastBadAddress :=
  fun _ _ _ => ⟨hostDump_ok, fun _ => hostDump_error⟩

/-- Settles O55: the probes of cells pass their range checks, the others make none. -/
theorem hostInspectReturnsTheState : Obligations.HostInspectReturnsTheState :=
  fun _ _ => ⟨fun _ ha => if_pos ha, fun i _ hD => if_pos ⟨i.cast_nonneg, Int.ofNat_lt.mpr hD⟩, rfl, rfl, rfl⟩

end Sys2Proof.Machine
end

section
/-! PROOFS of the families `60_exceptions.md` and `70_reset_and_hazards.md` (spec R165 to R198): what a terminal condition
writes, the cause of each fault, that the step is total, and the step on a cell that nothing wrote. -/

namespace Sys2Proof.Machine

/-! ### The step -/

/-- An operation's result and its fault are both next states. -/
theorem exists_exec_eq_next (i : Instr) (s : State) : ∃ u, exec i s = .next u := by
  cases ho : s.operation i with
  | ok u => exact ⟨u, exec_of_operation_ok ho⟩
  | error f => exact ⟨s.raise f, exec_of_operation_error ho⟩

/-- Settles O39: the engine is terminated, its fetch faults, or it executes an instruction. -/
theorem stepAlwaysAnswersANextState : Obligations.StepAlwaysAnswersANextState := by
  intro s
  cases hst : s.status with
  | terminated r => exact ⟨s, step_of_terminated hst⟩
  | running =>
    cases hf : s.fetchDecode with
    | error f => exact ⟨s.raise f, step_of_fetchDecode_error hst hf⟩
    | ok i =>
      obtain ⟨u, hu⟩ := exists_exec_eq_next i s
      exact ⟨u.endTest, step_of_exec hst hf hu⟩

/-- Settles O57: the default map gives NOOP the value 0, which an unlisted cell holds. -/
theorem unloadedCellExecutesAsNoop : Obligations.UnloadedCellExecutesAsNoop := by
  intro s hopc hrun hb hcell hM
  have hf : s.fetchDecode = .ok .noop := State.fetchDecode_registered hb (by rw [hopc, hcell]; decide)
  have hstep := step_of_operation_ok hrun hf (t := s.advance 1) rfl
  rwa [State.endTest_of_lt (s := s.advance 1) hM] at hstep

/-- Settles O36: a fault is latched in the state before the step. The end test meets a committed, hence Running, state
and latches the normal end or nothing. -/
theorem terminalConditionWritesOnlyStatus : Obligations.TerminalConditionWritesOnlyStatus := by
  intro s t hrun h
  rcases step_cases h with ⟨⟨r, hr⟩, -⟩ | ⟨-, -, rfl⟩ | ⟨-, -, -, rfl⟩ | ⟨-, -, i, g, -, -, rfl⟩ |
    ⟨-, hb, i, u, hd, ho, rfl⟩
  · simp [hrun] at hr
  · simp
  · simp
  · simp
  · have hu : u.status = .running := (State.operation_status ho).trans hrun
    rw [State.endTest_eq_ite]
    split
    · exact ⟨nofun, fun _ => ⟨i, u, State.fetchDecode_registered hb hd, exec_of_operation_ok ho, hu, rfl⟩⟩
    · simp [hu]

section
variable {s t : State} {i : Instr} {f : Fault} {k : StackId} {a b c : Int}

/-! ### The fault of an access (R169) -/

/-- `f` is the fault of an access to the address `a`. -/
def State.AccessFault (s : State) (a : Int) (f : Fault) : Prop := ¬ s.InBounds a ∧ f = .addressOutOfBounds a

@[simp] theorem State.accessFault_addressOutOfBounds :
    s.AccessFault b (.addressOutOfBounds a) ↔ a = b ∧ ¬ s.InBounds a :=
  ⟨fun ⟨hb, hf⟩ => by cases hf; exact ⟨rfl, hb⟩, fun ⟨ha, hb⟩ => by cases ha; exact ⟨hb, rfl⟩⟩

@[simp] theorem State.not_accessFault_stackOverflow : ¬ s.AccessFault a (.stackOverflow k) := by
  simp [State.AccessFault]

@[simp] theorem State.not_accessFault_stackUnderflow : ¬ s.AccessFault a (.stackUnderflow k) := by
  simp [State.AccessFault]

@[simp] theorem State.not_accessFault_divisionByZero : ¬ s.AccessFault a .divisionByZero := by
  simp [State.AccessFault]

@[simp] theorem State.not_accessFault_unknownOpcode : ¬ s.AccessFault a (.unknownOpcode c b) := by
  simp [State.AccessFault]

/-- From any address the scan raises no other fault, even where `pc` is out of bounds. -/
theorem State.scanFrom_error {n : Nat} (hend : s.params.memSize ≤ a + n) (h : s.scanFrom a n = .error f) :
    ∃ x, s.AccessFault x f := by
  induction n generalizing a with
  | zero =>
    cases h
    exact ⟨a, by omega, rfl⟩
  | succ n ih =>
    by_cases hb : s.InBounds a
    · simp only [State.scanFrom, State.memRead_ok hb, bind, Except.bind] at h
      split at h
      · cases h
      · exact ih (by push_cast at hend; omega) h
    · simp only [State.scanFrom, State.memRead_error hb, bind, Except.bind] at h
      cases h
      exact ⟨a, hb, rfl⟩

/-! ### The faults of the shared operations

The number of elements is `sp + 1`; the operands are taken off the stack first, and what they are used for is checked
after that (R171). -/

theorem two_le_add_one_iff : 2 ≤ a + 1 ↔ 1 ≤ a := by omega

theorem State.Inv.load_eq_error_iff (hs : s.Inv) : s.load k = .error f ↔
    (s.stack k).sp + 1 < 1 ∧ f = .stackUnderflow k ∨ 1 ≤ (s.stack k).sp + 1 ∧ s.AccessFault (s.stack k).top f := by
  have hD := hs.sp_lt k
  rcases s.load_cases k with ⟨hu, he⟩ | ⟨h0, hnb, he⟩ | ⟨-, -, ho, -⟩ | ⟨h0, hb, -, he⟩
  · simp [he, hu, eq_comm]
  · simp [he, h0, hnb, State.AccessFault, eq_comm]
  · omega
  · simp [he, h0, hb, State.AccessFault]

theorem State.store_eq_error_iff : s.store k = .error f ↔
    (s.stack k).sp + 1 < 2 ∧ f = .stackUnderflow k ∨ 2 ≤ (s.stack k).sp + 1 ∧ s.AccessFault (s.stack k).top f := by
  rw [← not_le, two_le_add_one_iff, not_le]
  rcases s.store_cases k with ⟨hu, he⟩ | ⟨h1, hnb, he⟩ | ⟨h1, hb, he⟩
  · simp [he, hu, eq_comm]
  · simp [he, h1, hnb, State.AccessFault, eq_comm]
  · simp [he, h1, hb, State.AccessFault]

theorem State.Inv.pushLiteral_eq_error_iff (hs : s.Inv) : s.pushLiteral = .error f ↔
    s.AccessFault (s.pc + 1) f ∨
    s.InBounds (s.pc + 1) ∧ s.ds.sp = (s.params.depth : Int) - 1 ∧ f = .stackOverflow .ds := by
  have hD : s.ds.sp < s.params.depth := hs.sp_lt .ds
  rcases s.pushLiteral_cases with ⟨hnb, he⟩ | ⟨hb, hfull, he⟩ | ⟨hb, hroom, he⟩
  · simp [he, hnb, State.AccessFault, eq_comm]
  · have hsp : s.ds.sp = (s.params.depth : Int) - 1 := by omega
    have hnf : ¬ s.AccessFault (s.pc + 1) f := fun ⟨hnb, _⟩ => hnb hb
    rw [he, Except.error.injEq, eq_comm, or_iff_right hnf, and_iff_right hb, and_iff_right hsp]
  · simp [he, hb, hroom.ne, State.AccessFault]

theorem State.Inv.binary_eq_error_iff {op : Int → Int → Except Fault Int} (hs : s.Inv) : s.binary op = .error f ↔
    s.ds.sp + 1 < 2 ∧ f = .stackUnderflow .ds ∨
    2 ≤ s.ds.sp + 1 ∧ op (s.ds.cell (s.ds.sp - 1)) s.ds.top = .error f := by
  have hD : s.ds.sp < s.params.depth := hs.sp_lt .ds
  rw [← not_le, two_le_add_one_iff, not_le]
  rcases s.binary_cases op with ⟨hu, he⟩ | ⟨h1, g, hg, he⟩ | ⟨-, hfull, -⟩ | ⟨h1, -, r, hr, he⟩
  · simp [he, hu, eq_comm]
  · simp [he, h1, hg]
  · omega
  · simp [he, h1, hr]

theorem quotient_eq_error_iff : quotient b a = .error f ↔ a = 0 ∧ f = .divisionByZero := by
  by_cases ha : a = 0 <;> simp [quotient, ha, eq_comm]

theorem State.branchIf_eq_error_iff : s.branchIf = .error f ↔
    s.ds.sp + 1 < 1 ∧ f = .stackUnderflow .ds ∨
    1 ≤ s.ds.sp + 1 ∧ s.ds.top = 0 ∧ ∃ x, s.scanThen s.pc = .error (.addressOutOfBounds x) ∧ s.AccessFault x f := by
  rcases s.branchIf_cases with ⟨hu, he⟩ | ⟨h0, hnz, he⟩ | ⟨h0, hz, g, hg, he⟩ | ⟨h0, hz, T, hT, he⟩
  · simp [he, hu, eq_comm]
  · simp [he, h0, hnz]
  · obtain ⟨x, hnb, rfl⟩ := State.scanFrom_error (by omega) hg
    have hx : s.AccessFault x f ↔ f = .addressOutOfBounds x := and_iff_right hnb
    simp [he, not_lt.mpr h0, h0, hz, hg, hx, eq_comm]
  · simp [he, h0, hz, hT]

theorem State.jumpRelative_eq_error_iff :
    s.jumpRelative = .error f ↔ s.ds.sp + 1 < 1 ∧ f = .stackUnderflow .ds := by
  rcases s.jumpRelative_cases with ⟨hu, he⟩ | ⟨h0, he⟩
  · simp [he, hu, eq_comm]
  · simp [he, h0]

/-! ### The faults of the instructions -/

/-- The faults that an instruction raises once its operands are off the stack (R99): a bad address, a full stack, a zero
divisor, a scan that finds no THEN. -/
def State.OperandFault (s : State) (f : Fault) : Instr → Prop
  | .dsFetch | .dsStore => s.AccessFault s.ds.top f
  | .rsFetch | .rsStore => s.AccessFault s.rs.top f
  | .literal => s.AccessFault (s.pc + 1) f ∨
      s.InBounds (s.pc + 1) ∧ s.ds.sp = (s.params.depth : Int) - 1 ∧ f = .stackOverflow .ds
  | .dsDiv => s.ds.top = 0 ∧ f = .divisionByZero
  | .if_ => s.ds.top = 0 ∧ ∃ x, s.scanThen s.pc = .error (.addressOutOfBounds x) ∧ s.AccessFault x f
  | .noop | .dsAdd | .dsSub | .dsMul | .dsEq | .then_ | .jump => False

theorem State.Inv.sp_add_one_nonneg (hs : s.Inv) (k : StackId) : 0 ≤ (s.stack k).sp + 1 := by
  obtain ⟨-, ⟨hsp, -⟩, -⟩ := hs.stack k
  omega

/-- An instruction raises an underflow of the stack it uses exactly where elements are missing, and else a fault of its
operands (R171). -/
theorem State.Inv.operation_eq_error_iff (hs : s.Inv) : s.operation i = .error f ↔
    (s.stack (stackUsed i)).sp + 1 < i.popCount (stackUsed i) ∧ f = .stackUnderflow (stackUsed i) ∨
    i.popCount (stackUsed i) ≤ (s.stack (stackUsed i)).sp + 1 ∧ s.OperandFault f i := by
  have hsp : 0 ≤ s.ds.sp + 1 := hs.sp_add_one_nonneg .ds
  cases i with
  | noop | then_ => simp [State.operation, State.OperandFault, stackUsed, Instr.popCount, hsp]
  | dsFetch | rsFetch => exact hs.load_eq_error_iff
  | dsStore | rsStore => exact State.store_eq_error_iff
  | literal =>
    simp [State.operation, hs.pushLiteral_eq_error_iff, State.OperandFault, stackUsed, Instr.popCount, hsp]
  | dsAdd | dsSub | dsMul | dsEq =>
    simp [State.operation, hs.binary_eq_error_iff, State.OperandFault, stackUsed, Instr.popCount]
  | dsDiv =>
    simp [State.operation, hs.binary_eq_error_iff, quotient_eq_error_iff, State.OperandFault, stackUsed, Instr.popCount]
  | if_ => exact State.branchIf_eq_error_iff
  | jump => simp [State.operation, State.jumpRelative_eq_error_iff, State.OperandFault, stackUsed, Instr.popCount]

theorem Instr.popCount_of_ne_stackUsed (hk : k ≠ stackUsed i) : i.popCount k = 0 := by
  revert hk
  cases i <;> cases k <;> decide

theorem State.not_operandFault_stackUnderflow : ¬ s.OperandFault (.stackUnderflow k) i := by
  cases i <;> simp [State.OperandFault]

theorem State.not_operandFault_unknownOpcode : ¬ s.OperandFault (.unknownOpcode c a) i := by
  cases i <;> simp [State.OperandFault]

theorem State.OperandFault.not_inBounds (h : s.OperandFault (.addressOutOfBounds a) i) : ¬ s.InBounds a := by
  have haccess : ∀ x, s.AccessFault x (.addressOutOfBounds a) → ¬ s.InBounds a := fun x hx =>
    (State.accessFault_addressOutOfBounds.mp hx).2
  cases i with
  | dsFetch | dsStore | rsFetch | rsStore => exact haccess _ h
  | literal =>
    obtain h | ⟨-, -, ⟨⟩⟩ := h
    exact haccess _ h
  | if_ =>
    obtain ⟨-, x, -, hx⟩ := h
    exact haccess x hx
  | dsDiv => obtain ⟨-, ⟨⟩⟩ := h
  | noop | dsAdd | dsSub | dsMul | dsEq | then_ | jump => exact False.elim h

/-! ### The cause of each fault -/

theorem State.Inv.operation_eq_stackOverflow_iff (hs : s.Inv) : s.operation i = .error (.stackOverflow k) ↔
    i = .literal ∧ k = .ds ∧ s.InBounds (s.pc + 1) ∧ s.ds.sp = (s.params.depth : Int) - 1 := by
  have hsp : 0 ≤ s.ds.sp + 1 := hs.sp_add_one_nonneg .ds
  rw [hs.operation_eq_error_iff]
  cases i <;> simp [State.OperandFault, stackUsed, Instr.popCount, hsp, and_comm, and_assoc]

theorem State.Inv.operation_eq_divisionByZero_iff (hs : s.Inv) :
    s.operation i = .error .divisionByZero ↔ i = .dsDiv ∧ 1 ≤ s.ds.sp ∧ s.ds.top = 0 := by
  rw [hs.operation_eq_error_iff]
  cases i <;> simp [State.OperandFault, stackUsed, Instr.popCount, two_le_add_one_iff]

theorem State.Inv.operation_eq_stackUnderflow_iff (hs : s.Inv) :
    s.operation i = .error (.stackUnderflow k) ↔ (s.stack k).sp + 1 < i.popCount k := by
  rw [hs.operation_eq_error_iff]
  by_cases hk : k = stackUsed i
  · simp [← hk, State.not_operandFault_stackUnderflow]
  · simp [hk, State.not_operandFault_stackUnderflow, Instr.popCount_of_ne_stackUsed hk, hs.sp_add_one_nonneg k]

theorem State.Inv.not_inBounds_of_operation_eq_error (hs : s.Inv)
    (h : s.operation i = .error (.addressOutOfBounds a)) : ¬ s.InBounds a := by
  obtain ⟨-, ⟨⟩⟩ | ⟨-, hf⟩ := hs.operation_eq_error_iff.mp h
  exact hf.not_inBounds

/-- From an address in bounds the scan fails at `M` (R141). -/
theorem State.scanThen_accessFault_iff {P : Int} (hP : s.InBounds P) :
    (∃ x, s.scanThen P = .error (.addressOutOfBounds x) ∧ s.AccessFault x (.addressOutOfBounds a)) ↔
      a = s.params.memSize ∧ ∀ u, P < u → u < s.params.memSize → s.mem.read u.toNat ≠ s.params.opc.then_ := by
  have hmissing := (scanFindsTheFirstThen s P hP).2
  constructor
  · rintro ⟨x, hx, hf⟩
    obtain ⟨rfl, -⟩ := State.accessFault_addressOutOfBounds.mp hf
    obtain ⟨⟨⟩, hnone⟩ := (hmissing _).mp hx
    exact ⟨rfl, hnone⟩
  · rintro ⟨rfl, hnone⟩
    exact ⟨_, (hmissing _).mpr ⟨rfl, hnone⟩, fun hM => lt_irrefl _ hM.2, rfl⟩

theorem State.Inv.operation_eq_addressOutOfBounds_iff (hs : s.Inv) (hb : s.InBounds s.pc) :
    s.operation i = .error (.addressOutOfBounds a) ↔
      (i = .literal ∧ a = s.pc + 1 ∧ ¬ s.InBounds a) ∨
      (i = .if_ ∧ 0 ≤ s.ds.sp ∧ s.ds.top = 0 ∧ a = s.params.memSize ∧
        ∀ u, s.pc < u → u < s.params.memSize → s.mem.read u.toNat ≠ s.params.opc.then_) ∨
      (i = .dsFetch ∧ 0 ≤ s.ds.sp ∧ a = s.ds.top ∧ ¬ s.InBounds a) ∨
      (i = .dsStore ∧ 1 ≤ s.ds.sp ∧ a = s.ds.top ∧ ¬ s.InBounds a) ∨
      (i = .rsFetch ∧ 0 ≤ s.rs.sp ∧ a = s.rs.top ∧ ¬ s.InBounds a) ∨
      (i = .rsStore ∧ 1 ≤ s.rs.sp ∧ a = s.rs.top ∧ ¬ s.InBounds a) := by
  have hsp : 0 ≤ s.ds.sp + 1 := hs.sp_add_one_nonneg .ds
  rw [hs.operation_eq_error_iff]
  cases i
  case if_ =>
    rw [State.OperandFault, State.scanThen_accessFault_iff hb]
    simp [stackUsed, Instr.popCount]
  all_goals simp [State.OperandFault, stackUsed, Instr.popCount, hsp, two_le_add_one_iff]

theorem State.Inv.operation_ne_unknownOpcode (hs : s.Inv) : s.operation i ≠ .error (.unknownOpcode c a) := by
  rw [Ne, hs.operation_eq_error_iff]
  simp [State.not_operandFault_unknownOpcode]

/-- From a Running state an instruction ends with the fault that its operation raises, and with nothing else. -/
theorem exec_status_eq_terminated_iff {r : Result} (hrun : s.status = .running) (h : exec i s = .next t) :
    t.status = .terminated r ↔ ∃ g, r = .fault g ∧ s.operation i = .error g := by
  rcases exec_cases h with hok | ⟨g, hg, rfl⟩
  · simp [hok, State.operation_status hok, hrun]
  · simp [hg, eq_comm]

end

/-- Settles O37: the status after the instruction is the fault of its operation, and each clause says when the operation
raises that fault. -/
theorem faultsComeFromTheirCauses : Obligations.FaultsComeFromTheirCauses := by
  intro i s t hs hrun h
  have hfault (f : Fault) : t.status = .terminated (.fault f) ↔ s.operation i = .error f := by
    simp [exec_status_eq_terminated_iff hrun h]
  have hend : t.status ≠ .terminated .endOfProgram := by simp [exec_status_eq_terminated_iff hrun h]
  simp only [ne_eq, hfault]
  exact ⟨fun _ => hs.operation_eq_stackOverflow_iff, hs.operation_eq_divisionByZero_iff,
    fun _ => hs.operation_eq_stackUnderflow_iff, fun _ => hs.not_inBounds_of_operation_eq_error,
    fun hb _ => hs.operation_eq_addressOutOfBounds_iff hb, fun _ _ => hs.operation_ne_unknownOpcode, hend⟩

end Sys2Proof.Machine
end
